-- ==== Sys2Proof/Word.lean ====
section
/-! DEFINITION. The word types of the machine: 32-bit registers, addresses and cells (00_scope.md R6, R8; 10_state.md R20, R21). -/

namespace Sys2Proof

/-- A 32-bit value: a register, an address, a memory cell, an instruction word (R8, R60). -/
abbrev Word := BitVec 32

/-- A byte: the unit in which memory is stored (`Host.Cell`); no instruction can see one (R46). -/
abbrev Byte := BitVec 8

/-- The number of a general register, 0 to 7 (R21). -/
abbrev Reg := Fin 8

end Sys2Proof
end

