-- ==== Sys2Proof/Config.lean ====
section
/-! DEFINITION. The implementation parameters of 00_scope.md R6, all nineteen rows in one record. Their values are in
Sys2Proof/Machine/Params.lean. Four are widths that the types `Word` and `Reg` carry, and IMEM_SHARED is that State has one memory;
Sys2Proof/Laws/State.lean proves that the record and the types agree (`config_widths`, `config_one_memory`). The machine reads the
other fourteen. -/

namespace Sys2Proof

/-- What a B or B.cond offset is added to (D12): the branch's own address, or the next instruction's. -/
inductive BranchBase where
  | self | next
deriving DecidableEq, Repr

/-- The order of the bytes of a cell, from its lowest storage key (D8). -/
inductive Endian where
  | little | big
deriving DecidableEq, Repr

/-- What state nothing has written reads as (D26). A register or flag holds a value; a byte of memory may have none. -/
structure Uninit where
  /-- A general register (log entry 1). -/
  reg : Word
  /-- A condition flag (log entry 2). -/
  flag : Bool
  /-- A byte of memory; `none` is the fault reading of R175 (log entry 3). -/
  byte : Option Byte
deriving DecidableEq, Repr

namespace Machine

/-- An interval of implemented addresses, both ends included. -/
structure Region where
  lo : Word
  hi : Word
deriving DecidableEq, Repr

end Machine

/-- The parameters of R6, in its order. A Boolean field names the reading it stands for; `false` is the alternative reading that
92_eei_decisions.md records beside the decision. -/
structure Config where
  /-- ILEN: the bits of an instruction (R60); the width of a `Word`. -/
  ilen : Nat
  /-- NREG: the number of general registers (R21); the bound of a `Reg`. -/
  nreg : Nat
  /-- XLEN: the bits of a register (R20); the width of a `Word`. -/
  xlen : Nat
  /-- ALEN: the bits of an address (D6); the width of a `Word`. -/
  alen : Nat
  /-- GRANULE: how many bytes of storage one address names (D5); 4 is the word-addressed memory of R40. -/
  granule : Nat
  /-- ISTEP: the address distance between consecutive instructions (D5, D11). -/
  istep : Word
  /-- MEM_DOMAIN (D10), as it is before the host chooses another: the host's choice for a run is `State.memDomain`. -/
  memDomain : List Machine.Region
  /-- IMEM_SHARED (D7): the fetch, LOAD and STOR access one memory. The alternative is a second memory, which State does not have. -/
  imemShared : Bool
  /-- RESET_PC (D25). -/
  resetPc : Word
  /-- BRANCH_BASE (D12). -/
  branchBase : BranchBase
  /-- MOV_KEEPS_UPPER (D14). -/
  movKeepsUpper : Bool
  /-- SHIFT_SATURATES (D21). -/
  shiftSaturates : Bool
  /-- LOGIC_S_CLEARS_CV (D18). -/
  logicSClearsCV : Bool
  /-- X_BITS_IGNORED (D3). -/
  xBitsIgnored : Bool
  /-- BR_ABSOLUTE (D13). -/
  brAbsolute : Bool
  /-- SUB_CARRY_IS_NOT_BORROW (D17). -/
  subCarryIsNotBorrow : Bool
  /-- CMP_WRITES_RD (D20). -/
  cmpWritesRd : Bool
  /-- ENDIAN (D8), unobservable while one address names a whole cell (R46). -/
  endian : Endian
  /-- UNINIT (D26). -/
  uninit : Uninit
deriving DecidableEq, Repr

end Sys2Proof
end

