-- ==== Sys2Proof/Machine/Params.lean ====
section
/-! DEFINITION. The values of the parameters, as the spec decides them (00_scope.md R6, 92_eei_decisions.md); those of `memDomain` and
`uninit`, which it leaves open or unspecified, are the model's. -/

namespace Sys2Proof.Machine

/-- The decided values of R6 (log entries 5, 10 to 21 and 26); `memDomain` is log entry 4, `uninit` log entries 1 to 3. -/
def config : Config where
  ilen := 32
  nreg := 8
  xlen := 32
  alen := 32
  granule := 4
  istep := 1
  memDomain := [⟨0x00000000, 0xFFFFFFFF⟩]
  imemShared := true
  resetPc := 0x00000000
  branchBase := .self
  movKeepsUpper := true
  shiftSaturates := true
  logicSClearsCV := true
  xBitsIgnored := true
  brAbsolute := true
  subCarryIsNotBorrow := true
  cmpWritesRd := true
  endian := .little
  uninit := { reg := 0x00000000, flag := false, byte := none }

end Sys2Proof.Machine
end

