-- ==== Sys2Proof/Machine/State.lean ====
section
/-! DEFINITION. The state of the machine (10_state.md R36 and the rules it names), the reasons a step can stop, and the state
after reset (70_reset_and_hazards.md R190, R191). -/

namespace Sys2Proof.Machine

/-- The four condition flags (R27). -/
structure Flags where
  n : Bool
  z : Bool
  c : Bool
  v : Bool
deriving DecidableEq, Repr

/-- Memory as bytes, sorted by storage key (see `Memory.wf`): cell `a` is the four bytes at `cellKey a` .. `cellKey a + 3`
(R40; log entry 5). -/
abbrev Memory := List Host.Cell

/-- The kind of a memory access, as a `MemoryFault` records it (60_exceptions.md R174). -/
inductive Access where
  | fetch | load | store
deriving DecidableEq, Repr

/-- Why a step stops. The first three are the model faults of R172: the step does not happen and the faulted state is never final. -/
inductive Fault where
  /-- `UndefinedInstruction(w)` (R173), with the word and its address. Raised by the fetch-and-decode of `step` when the word matches
  no row of R75. Safe: what the hardware does there is unknown. -/
  | undefinedInstruction (w pc : Word)
  /-- `MemoryFault(a)` (R174), with the kind of access and the pc. Raised by a fetch, LOAD or STOR outside MEM_DOMAIN. Safe. -/
  | memoryFault (a : Word) (kind : Access) (pc : Word)
  /-- `UninitialisedRead` (R175) of the memory cell `a`, which neither the host nor a STOR has written. Raised by a fetch or LOAD.
  Safe (log entry 3). -/
  | uninitialisedRead (a : Word) (kind : Access) (pc : Word)
  /-- Not a model fault: the stuck state of a halted CPU, which has no step (R31, R170, R176). Raised by `step` when HALTED is 1; the
  state it was asked to step is the final state of the run. Safe (log entry 7). -/
  | cpuStopped
deriving DecidableEq, Repr

/-- Why an instruction has no meaning in the model. -/
inductive Refusal where
  /-- Raised only by an arm of `exec` whose instruction has no meaning yet. Safe. -/
  | notModelled (mnemonic : String)
deriving DecidableEq, Repr

/-- Everything the spec gives the machine (R36), and MEM_DOMAIN, which the host chooses before a run (R187). -/
structure State where
  /-- R0 .. R7 (R21, R22). -/
  regs : Vector Word 8
  /-- The address of the instruction being executed (R24). -/
  pc : Word
  /-- N, Z, C, V (R27). -/
  flags : Flags
  /-- HALTED (R31). -/
  halted : Bool
  /-- MEM_DOMAIN (R47): the addresses inside some region. No instruction writes it (log entry 4). -/
  memDomain : List Region
  /-- The contents of the cells (R40, R42). -/
  mem : Memory
deriving DecidableEq, Repr

/-- The machine right after reset, before the host has loaded anything: pc at RESET_PC and HALTED 0 (R36, R190); registers and
flags as UNINIT says (log entries 1, 2); MEM_DOMAIN as Config has it (log entry 4) and no cell written (R191). -/
def State.reset : State where
  regs := Vector.replicate 8 config.uninit.reg
  pc := config.resetPc
  flags := ⟨config.uninit.flag, config.uninit.flag, config.uninit.flag, config.uninit.flag⟩
  halted := false
  memDomain := config.memDomain
  mem := []

end Sys2Proof.Machine
end

