-- ==== Sys2Proof/Machine/Ops.lean ====
section
/-! DEFINITION. The named operations over registers, flags, pc and memory (10_state.md R22 to R28; 20_memory.md R40 to R47). The
hardware has no exception to take and none to return from (60_exceptions.md R171, R179), so there is no operation for either: a
step that cannot happen answers one of the model faults of R172 and writes nothing. -/

namespace Sys2Proof.Machine

/-! ### Registers, flags, pc -/

/-- `x[i]` (R22). All eight registers are alike. -/
def State.reg (s : State) (i : Reg) : Word := s.regs[i]

/-- `x[i] <- v` (R22). -/
def State.setReg (s : State) (i : Reg) (v : Word) : State := { s with regs := s.regs.set i v }

/-- `NZCV <- f` (R28): all four flags at once. -/
def State.setFlags (s : State) (f : Flags) : State := { s with flags := f }

/-- `pc <- t` (R25). -/
def State.setPc (s : State) (t : Word) : State := { s with pc := t }

/-- `pc <- pc + ISTEP` (R25), modulo 2^32 (R26). -/
def State.advance (s : State) : State := s.setPc (s.pc + config.istep)

/-- `HALTED <- b` (R31). -/
def State.setHalted (s : State) (b : Bool) : State := { s with halted := b }

/-- The memory replaced. -/
def State.setMem (s : State) (m : Memory) : State := { s with mem := m }

/-- The end of an instruction that only writes `rd` (R22, R25). -/
def State.finish (s : State) (rd : Reg) (v : Word) : State := (s.setReg rd v).advance

/-- The end of an instruction that writes `rd` and the flags (R28, R113). -/
def State.finishFlags (s : State) (rd : Reg) (v : Word) (f : Flags) : State := ((s.setReg rd v).setFlags f).advance

/-! ### Bytes of memory -/

/-- What a byte nothing has written reads as: what UNINIT says (R43, R175; log entry 3). -/
def unwrittenByte : Option Byte := config.uninit.byte

/-- The byte under a storage key. -/
def Memory.byte (m : Memory) (k : Nat) : Option Byte :=
  match m with
  | [] => unwrittenByte
  | e :: rest => if e.1 = k then some e.2 else Memory.byte rest k

/-- Puts an entry before the first greater key. -/
def Memory.insert (m : Memory) (k : Nat) (b : Byte) : Memory :=
  match m with
  | [] => [(k, b)]
  | e :: rest => if k < e.1 then (k, b) :: e :: rest else e :: Memory.insert rest k b

/-- The byte under a storage key replaced; a byte that an unlisted key reads as is not listed. -/
def Memory.setByte (m : Memory) (k : Nat) (b : Byte) : Memory :=
  let others := m.filter fun e => e.1 ≠ k
  if some b = unwrittenByte then others else Memory.insert others k b

/-- The one canonical form: keys strictly rising, no entry equal to what an unlisted key reads as. -/
abbrev Memory.wf (m : Memory) : Prop :=
  m.Pairwise (fun e f => e.1 < f.1) ∧ ∀ e ∈ m, some e.2 ≠ unwrittenByte

/-! ### Cells of memory -/

/-- The lowest storage key of a cell (R40; D5; log entry 5). -/
def cellKey (a : Word) : Nat := config.granule * a.toNat

/-- A 32-bit value from its bytes, in the order of their keys (D8). -/
def wordOfBytes (b0 b1 b2 b3 : Byte) : Word :=
  match config.endian with
  | .little => b3 ++ b2 ++ b1 ++ b0
  | .big => b0 ++ b1 ++ b2 ++ b3

/-- Byte `j` of a value, in the order of the keys (D8). -/
def byteOfWord (v : Word) (j : Nat) : Byte :=
  match config.endian with
  | .little => v.extractLsb' (8 * j) 8
  | .big => v.extractLsb' (8 * (3 - j)) 8

/-- The value of cell `a`, if it has one (R40, R43). -/
def Memory.readCell (m : Memory) (a : Word) : Option Word :=
  match m.byte (cellKey a), m.byte (cellKey a + 1), m.byte (cellKey a + 2), m.byte (cellKey a + 3) with
  | some b0, some b1, some b2, some b3 => some (wordOfBytes b0 b1 b2 b3)
  | _, _, _, _ => none

/-- Cell `a` takes the value `v`, all 32 bits (R44). -/
def Memory.writeCell (m : Memory) (a v : Word) : Memory :=
  (((m.setByte (cellKey a) (byteOfWord v 0)).setByte (cellKey a + 1) (byteOfWord v 1)).setByte
    (cellKey a + 2) (byteOfWord v 2)).setByte (cellKey a + 3) (byteOfWord v 3)

/-! ### Accesses -/

/-- The address is in the region. -/
def Region.contains (r : Region) (a : Word) : Bool := r.lo ≤ a && a ≤ r.hi

/-- The address is in MEM_DOMAIN (R47). -/
def State.implements (s : State) (a : Word) : Bool := s.memDomain.any (·.contains a)

/-- `MemRead(a, 4)` (R43, R174, R175): the value of cell `a`; no state changes. -/
def State.memRead (s : State) (kind : Access) (a : Word) : Except Fault Word :=
  if s.implements a then
    match s.mem.readCell a with
    | some v => .ok v
    | none => .error (.uninitialisedRead a kind s.pc)
  else .error (.memoryFault a kind s.pc)

/-- `MemWrite(a, 4, v)` (R44, R174). -/
def State.memWrite (s : State) (a v : Word) : Except Fault State :=
  if s.implements a then .ok (s.setMem (s.mem.writeCell a v))
  else .error (.memoryFault a .store s.pc)

end Sys2Proof.Machine
end

