-- ==== Sys2Proof/Machine/Boot.lean ====
section
/-! DEFINITION. What the host does before a run (60_exceptions.md R187): writing cells, loading a program (70_reset_and_hazards.md
R191), applying reset (R190). No step calls any of it. -/

namespace Sys2Proof.Machine

/-- The host writes the value `v` into cell `a` (R187). -/
def State.hostWrite (s : State) (a v : Word) : State := s.setMem (s.mem.writeCell a v)

/-- The host writes the words of an image at consecutive addresses from `a` (R191: a program starts at RESET_PC). -/
def State.hostLoad (s : State) (a : Word) : List Word → State
  | [] => s
  | w :: rest => (s.hostWrite a w).hostLoad (a + config.istep) rest

/-- The reset event (R190): pc and HALTED as R190 says, registers and flags at the values of log entries 1, 2 and 9, memory and
MEM_DOMAIN as they were. -/
def State.applyReset (s : State) : State := { State.reset with memDomain := s.memDomain, mem := s.mem }

/-- Cell `a` is implemented: MEM_DOMAIN as it is where it holds `a`, else with `a` added. -/
def State.withImplemented (s : State) (a : Word) : State :=
  if s.implements a then s else { s with memDomain := ⟨a, a⟩ :: s.memDomain }

/-- The word `w` placed where the next step fetches, and that step enabled: the cell at the pc implemented and holding `w`, HALTED 0
(log entry 8). -/
def State.placeAtPc (s : State) (w : Word) : State :=
  ((s.setHalted false).withImplemented s.pc).hostWrite s.pc w

end Sys2Proof.Machine
end

