-- ==== Sys2Proof/Syntax.lean ====
section
/-! DEFINITION. The instructions: one constructor per row of spec/opcode_table.json (30_encoding.md R75), with its operands as
R64 reads them: register numbers, unsigned immediates as `Nat`, signed offsets as `Int`, condition codes by name. -/

namespace Sys2Proof

/-- The condition codes of B.cond, in the order of their 4-bit encodings (10_state.md R29). -/
inductive Cond where
  | eq | ne | cs | cc | mi | pl | vs | vc | hi | ls | ge | lt | gt | le | al | nv
deriving DecidableEq, Repr

/-- The 34 instructions. -/
inductive Instr where
  /-- LOAD, R100 -/
  | load (rd rp : Reg) (off : Int)
  /-- STOR, R101 -/
  | stor (rd rp : Reg) (off : Int)
  /-- MOV, R110 -/
  | mov (rd : Reg) (imm : Nat)
  /-- MOVT, R111 -/
  | movt (rd : Reg) (imm : Nat)
  /-- ADD (IMM), R114 -/
  | addImm (rd ra : Reg) (imm : Nat)
  /-- ADDS (IMM), R115 -/
  | addsImm (rd ra : Reg) (imm : Nat)
  /-- SUB (IMM), R116 -/
  | subImm (rd ra : Reg) (imm : Nat)
  /-- CMP [SUBS] (IMM), R117 -/
  | cmpImm (rd ra : Reg) (imm : Nat)
  /-- AND (IMM), R118 -/
  | andImm (rd ra : Reg) (imm : Nat)
  /-- ANDS (IMM), R119 -/
  | andsImm (rd ra : Reg) (imm : Nat)
  /-- OR (IMM), R120 -/
  | orImm (rd ra : Reg) (imm : Nat)
  /-- ORS (IMM), R121 -/
  | orsImm (rd ra : Reg) (imm : Nat)
  /-- XOR (IMM), R122 -/
  | xorImm (rd ra : Reg) (imm : Nat)
  /-- XORS (IMM), R123 -/
  | xorsImm (rd ra : Reg) (imm : Nat)
  /-- LSL, R124 -/
  | lsl (rd rs : Reg) (imm : Nat)
  /-- LSR, R125 -/
  | lsr (rd rs : Reg) (imm : Nat)
  /-- CLR, R126 -/
  | clr (rd : Reg)
  /-- SET, R127 -/
  | set (rd : Reg)
  /-- ADD (REG), R130 -/
  | addReg (rd ra rb : Reg)
  /-- ADDS (REG), R131 -/
  | addsReg (rd ra rb : Reg)
  /-- SUB (REG), R132 -/
  | subReg (rd ra rb : Reg)
  /-- CMP [SUBS] (REG), R133 -/
  | cmpReg (rd ra rb : Reg)
  /-- AND (REG), R134 -/
  | andReg (rd ra rb : Reg)
  /-- ANDS (REG), R135 -/
  | andsReg (rd ra rb : Reg)
  /-- OR (REG), R136 -/
  | orReg (rd ra rb : Reg)
  /-- ORS (REG), R137 -/
  | orsReg (rd ra rb : Reg)
  /-- XOR (REG), R138 -/
  | xorReg (rd ra rb : Reg)
  /-- XORS (REG), R139 -/
  | xorsReg (rd ra rb : Reg)
  /-- NOT, R140 -/
  | not (rd ra : Reg)
  /-- B (IMM), R150 -/
  | b (off : Int)
  /-- B.cond (IMM), R151 -/
  | bCond (cond : Cond) (off : Int)
  /-- BR (REG), R152 -/
  | br (rd : Reg) (off : Int)
  /-- NOP, R153 -/
  | nop
  /-- HALT, R154 -/
  | halt
deriving DecidableEq, Repr

end Sys2Proof
end

