-- ==== Sys2Proof/Machine/Flags.lean ====
section
/-! DEFINITION. How the flags are computed (00_scope.md R10, R14) and tested (10_state.md R29). -/

namespace Sys2Proof.Machine

/-- `AddWithCarry(a, b, cin)` (R10): the exact unsigned sum `u` and signed sum `i`, narrowed. -/
def addWithCarry (a b : Word) (cin : Bool) : Word × Flags :=
  let u : Nat := a.toNat + b.toNat + cin.toNat
  let i : Int := a.toInt + b.toInt + cin.toNat
  let r : Word := BitVec.ofNat 32 u
  (r, { n := r.getLsbD 31
        z := r == 0
        c := u ≥ 2 ^ 32
        v := i < -2 ^ 31 || i > 2 ^ 31 - 1 })

/-- The subtraction of CMP [SUBS]: `AddWithCarry(a, NOT b, 1)` (R10, R117, R133), with C as SUB_CARRY_IS_NOT_BORROW says (D17). -/
def subWithFlags (a b : Word) : Word × Flags :=
  let (r, f) := addWithCarry a (~~~b) true
  (r, { f with c := if config.subCarryIsNotBorrow then f.c else !f.c })

/-- `LogicFlags(r)` (R14): N and Z of the result; C and V cleared, or as they were where LOGIC_S_CLEARS_CV is false (D18). -/
def logicFlags (old : Flags) (r : Word) : Flags where
  n := r.getLsbD 31
  z := r == 0
  c := if config.logicSClearsCV then false else old.c
  v := if config.logicSClearsCV then false else old.v

/-- `CondHolds(c)` on the flags (R29). -/
def condHolds (c : Cond) (f : Flags) : Bool :=
  match c with
  | .eq => f.z
  | .ne => !f.z
  | .cs => f.c
  | .cc => !f.c
  | .mi => f.n
  | .pl => !f.n
  | .vs => f.v
  | .vc => !f.v
  | .hi => f.c && !f.z
  | .ls => !(f.c && !f.z)
  | .ge => f.n == f.v
  | .lt => f.n != f.v
  | .gt => !f.z && f.n == f.v
  | .le => !(!f.z && f.n == f.v)
  | .al => true
  | .nv => true

end Sys2Proof.Machine
end

