-- ==== Sys2Proof/Machine/Operands.lean ====
section
/-! DEFINITION. The operand forms: immediates and offsets as 32-bit values (30_encoding.md R64), register offset addressing
(00_scope.md R13), register halves (41_data_immediate.md R110, R111), shifts (R124, R125), branch targets (43_system_branch.md
R150 to R152). -/

namespace Sys2Proof.Machine

/-- `zext_32` of an unsigned literal (R8, R64 (b)). -/
def zext32 (imm : Nat) : Word := BitVec.ofNat 32 imm

/-- `sext_32` of a signed literal (R8, R64 (d), (e)). -/
def sext32 (off : Int) : Word := BitVec.ofInt 32 off

/-- Register Offset addressing: `x[r] + sext_32(off16)`, modulo 2^32 (R13, R41). -/
def State.offsetAddress (s : State) (r : Reg) (off : Int) : Word := s.reg r + sext32 off

/-- Bits [15:0] replaced, bits [31:16] kept (R110), or cleared where MOV_KEEPS_UPPER is false (D14). -/
def withLowerHalf (x : Word) (imm : Nat) : Word :=
  (if config.movKeepsUpper then x.extractLsb' 16 16 else 0) ++ BitVec.ofNat 16 imm

/-- Bits [31:16] replaced, bits [15:0] kept (R111). -/
def withUpperHalf (x : Word) (imm : Nat) : Word := BitVec.ofNat 16 imm ++ x.extractLsb' 0 16

/-- The amount a shift uses: the whole literal, or its value modulo 32 where SHIFT_SATURATES is false (D21). -/
def shiftAmount (n : Nat) : Nat := if config.shiftSaturates then n else n % 32

/-- `(x * 2^n) mod 2^32`; 0 when n >= 32 (R124). -/
def shiftLeft (x : Word) (n : Nat) : Word := if shiftAmount n < 32 then x <<< shiftAmount n else 0

/-- `floor(x / 2^n)`, x unsigned; 0 when n >= 32 (R125). -/
def shiftRight (x : Word) (n : Nat) : Word := if shiftAmount n < 32 then x >>> shiftAmount n else 0

/-- The target of B and of a taken B.cond (R150, D12). -/
def State.branchTarget (s : State) (off : Int) : Word :=
  match config.branchBase with
  | .self => s.pc + sext32 off
  | .next => s.pc + config.istep + sext32 off

/-- The target of BR: absolute (R152, D13). -/
def State.registerTarget (s : State) (rd : Reg) (off : Int) : Word :=
  if config.brAbsolute then s.offsetAddress rd off else s.pc + s.offsetAddress rd off

end Sys2Proof.Machine
end

