-- ==== Sys2Proof/Machine/DataImmediate.lean ====
section
/-! DEFINITION. The data immediate instructions (41_data_immediate.md). Operand 2 of the ten ALU forms is `zext32 imm` (R112). -/

namespace Sys2Proof.Machine

/-- MOV (R110). -/
def execMov (rd : Reg) (imm : Nat) (s : State) : Host.Outcome State Fault Refusal :=
  .next (s.finish rd (withLowerHalf (s.reg rd) imm))

/-- MOVT (R111). -/
def execMovt (rd : Reg) (imm : Nat) (s : State) : Host.Outcome State Fault Refusal :=
  .next (s.finish rd (withUpperHalf (s.reg rd) imm))

/-- ADD (IMM) (R114). -/
def execAddImm (rd ra : Reg) (imm : Nat) (s : State) : Host.Outcome State Fault Refusal :=
  .next (s.finish rd (s.reg ra + zext32 imm))

/-- ADDS (IMM) (R115). -/
def execAddsImm (rd ra : Reg) (imm : Nat) (s : State) : Host.Outcome State Fault Refusal :=
  let (r, f) := addWithCarry (s.reg ra) (zext32 imm) false
  .next (s.finishFlags rd r f)

/-- SUB (IMM) (R116). -/
def execSubImm (rd ra : Reg) (imm : Nat) (s : State) : Host.Outcome State Fault Refusal :=
  .next (s.finish rd (s.reg ra - zext32 imm))

/-- CMP [SUBS] (IMM) (R117): it writes `rd` (R113), unless CMP_WRITES_RD is false (D20). -/
def execCmpImm (rd ra : Reg) (imm : Nat) (s : State) : Host.Outcome State Fault Refusal :=
  let (r, f) := subWithFlags (s.reg ra) (zext32 imm)
  .next (s.finishFlags rd (if config.cmpWritesRd then r else s.reg rd) f)

/-- AND (IMM) (R118). -/
def execAndImm (rd ra : Reg) (imm : Nat) (s : State) : Host.Outcome State Fault Refusal :=
  .next (s.finish rd (s.reg ra &&& zext32 imm))

/-- ANDS (IMM) (R119). -/
def execAndsImm (rd ra : Reg) (imm : Nat) (s : State) : Host.Outcome State Fault Refusal :=
  let r := s.reg ra &&& zext32 imm
  .next (s.finishFlags rd r (logicFlags s.flags r))

/-- OR (IMM) (R120). -/
def execOrImm (rd ra : Reg) (imm : Nat) (s : State) : Host.Outcome State Fault Refusal :=
  .next (s.finish rd (s.reg ra ||| zext32 imm))

/-- ORS (IMM) (R121). -/
def execOrsImm (rd ra : Reg) (imm : Nat) (s : State) : Host.Outcome State Fault Refusal :=
  let r := s.reg ra ||| zext32 imm
  .next (s.finishFlags rd r (logicFlags s.flags r))

/-- XOR (IMM) (R122). -/
def execXorImm (rd ra : Reg) (imm : Nat) (s : State) : Host.Outcome State Fault Refusal :=
  .next (s.finish rd (s.reg ra ^^^ zext32 imm))

/-- XORS (IMM) (R123). -/
def execXorsImm (rd ra : Reg) (imm : Nat) (s : State) : Host.Outcome State Fault Refusal :=
  let r := s.reg ra ^^^ zext32 imm
  .next (s.finishFlags rd r (logicFlags s.flags r))

/-- LSL (R124). -/
def execLsl (rd rs : Reg) (imm : Nat) (s : State) : Host.Outcome State Fault Refusal :=
  .next (s.finish rd (shiftLeft (s.reg rs) imm))

/-- LSR (R125). -/
def execLsr (rd rs : Reg) (imm : Nat) (s : State) : Host.Outcome State Fault Refusal :=
  .next (s.finish rd (shiftRight (s.reg rs) imm))

/-- CLR (R126). -/
def execClr (rd : Reg) (s : State) : Host.Outcome State Fault Refusal :=
  .next (s.finish rd 0x00000000)

/-- SET (R127). -/
def execSet (rd : Reg) (s : State) : Host.Outcome State Fault Refusal :=
  .next (s.finish rd 0xFFFFFFFF)

end Sys2Proof.Machine
end

