-- ==== Sys2Proof/Machine/DataRegister.lean ====
section
/-! DEFINITION. The data register instructions (42_data_register.md). Both operands are read before `rd` is written (R141). -/

namespace Sys2Proof.Machine

/-- ADD (REG) (R130). -/
def execAddReg (rd ra rb : Reg) (s : State) : Host.Outcome State Fault Refusal :=
  .next (s.finish rd (s.reg ra + s.reg rb))

/-- ADDS (REG) (R131). -/
def execAddsReg (rd ra rb : Reg) (s : State) : Host.Outcome State Fault Refusal :=
  let (r, f) := addWithCarry (s.reg ra) (s.reg rb) false
  .next (s.finishFlags rd r f)

/-- SUB (REG) (R132). -/
def execSubReg (rd ra rb : Reg) (s : State) : Host.Outcome State Fault Refusal :=
  .next (s.finish rd (s.reg ra - s.reg rb))

/-- CMP [SUBS] (REG) (R133): it writes `rd` (R113), unless CMP_WRITES_RD is false (D20). -/
def execCmpReg (rd ra rb : Reg) (s : State) : Host.Outcome State Fault Refusal :=
  let (r, f) := subWithFlags (s.reg ra) (s.reg rb)
  .next (s.finishFlags rd (if config.cmpWritesRd then r else s.reg rd) f)

/-- AND (REG) (R134). -/
def execAndReg (rd ra rb : Reg) (s : State) : Host.Outcome State Fault Refusal :=
  .next (s.finish rd (s.reg ra &&& s.reg rb))

/-- ANDS (REG) (R135). -/
def execAndsReg (rd ra rb : Reg) (s : State) : Host.Outcome State Fault Refusal :=
  let r := s.reg ra &&& s.reg rb
  .next (s.finishFlags rd r (logicFlags s.flags r))

/-- OR (REG) (R136). -/
def execOrReg (rd ra rb : Reg) (s : State) : Host.Outcome State Fault Refusal :=
  .next (s.finish rd (s.reg ra ||| s.reg rb))

/-- ORS (REG) (R137). -/
def execOrsReg (rd ra rb : Reg) (s : State) : Host.Outcome State Fault Refusal :=
  let r := s.reg ra ||| s.reg rb
  .next (s.finishFlags rd r (logicFlags s.flags r))

/-- XOR (REG) (R138). -/
def execXorReg (rd ra rb : Reg) (s : State) : Host.Outcome State Fault Refusal :=
  .next (s.finish rd (s.reg ra ^^^ s.reg rb))

/-- XORS (REG) (R139). -/
def execXorsReg (rd ra rb : Reg) (s : State) : Host.Outcome State Fault Refusal :=
  let r := s.reg ra ^^^ s.reg rb
  .next (s.finishFlags rd r (logicFlags s.flags r))

/-- NOT (R140). -/
def execNot (rd ra : Reg) (s : State) : Host.Outcome State Fault Refusal :=
  .next (s.finish rd (~~~(s.reg ra)))

end Sys2Proof.Machine
end

