-- ==== Sys2Proof/Machine/LoadStore.lean ====
section
/-! DEFINITION. The load/store instructions (40_load_store.md). -/

namespace Sys2Proof.Machine

/-- LOAD (R100). -/
def execLoad (rd rp : Reg) (off : Int) (s : State) : Host.Outcome State Fault Refusal :=
  match s.memRead .load (s.offsetAddress rp off) with
  | .ok v => .next (s.finish rd v)
  | .error f => .fault f

/-- STOR (R101): `rd` is read, not written. -/
def execStor (rd rp : Reg) (off : Int) (s : State) : Host.Outcome State Fault Refusal :=
  match s.memWrite (s.offsetAddress rp off) (s.reg rd) with
  | .ok t => .next t.advance
  | .error f => .fault f

end Sys2Proof.Machine
end

