-- ==== Sys2Proof/Machine/SystemBranch.lean ====
section
/-! DEFINITION. The system and branch instructions (43_system_branch.md). A branch never faults: a bad target shows at the next
fetch (R155 (c)). -/

namespace Sys2Proof.Machine

/-- B (R150). -/
def execB (off : Int) (s : State) : Host.Outcome State Fault Refusal :=
  .next (s.setPc (s.branchTarget off))

/-- B.cond (R151). -/
def execBCond (cond : Cond) (off : Int) (s : State) : Host.Outcome State Fault Refusal :=
  .next (if condHolds cond s.flags then s.setPc (s.branchTarget off) else s.advance)

/-- BR (R152): `rd` is read, not written. -/
def execBr (rd : Reg) (off : Int) (s : State) : Host.Outcome State Fault Refusal :=
  .next (s.setPc (s.registerTarget rd off))

/-- NOP (R153). -/
def execNop (s : State) : Host.Outcome State Fault Refusal :=
  .next s.advance

/-- HALT (R154). -/
def execHalt (s : State) : Host.Outcome State Fault Refusal :=
  .next (s.setHalted true).advance

end Sys2Proof.Machine
end

