-- ==== Sys2Proof/Machine/Dispatch.lean ====
section
/-! DEFINITION. One arm per instruction (60_exceptions.md R170, part (3) of a step). -/

namespace Sys2Proof.Machine

def exec (i : Instr) (s : State) : Host.Outcome State Fault Refusal :=
  match i with
  | .load rd rp off => Sys2Proof.Machine.execLoad rd rp off s
  | .stor rd rp off => Sys2Proof.Machine.execStor rd rp off s
  | .mov rd imm => Sys2Proof.Machine.execMov rd imm s
  | .movt rd imm => Sys2Proof.Machine.execMovt rd imm s
  | .addImm rd ra imm => Sys2Proof.Machine.execAddImm rd ra imm s
  | .addsImm rd ra imm => Sys2Proof.Machine.execAddsImm rd ra imm s
  | .subImm rd ra imm => Sys2Proof.Machine.execSubImm rd ra imm s
  | .cmpImm rd ra imm => Sys2Proof.Machine.execCmpImm rd ra imm s
  | .andImm rd ra imm => Sys2Proof.Machine.execAndImm rd ra imm s
  | .andsImm rd ra imm => Sys2Proof.Machine.execAndsImm rd ra imm s
  | .orImm rd ra imm => Sys2Proof.Machine.execOrImm rd ra imm s
  | .orsImm rd ra imm => Sys2Proof.Machine.execOrsImm rd ra imm s
  | .xorImm rd ra imm => Sys2Proof.Machine.execXorImm rd ra imm s
  | .xorsImm rd ra imm => Sys2Proof.Machine.execXorsImm rd ra imm s
  | .lsl rd rs imm => Sys2Proof.Machine.execLsl rd rs imm s
  | .lsr rd rs imm => Sys2Proof.Machine.execLsr rd rs imm s
  | .clr rd => Sys2Proof.Machine.execClr rd s
  | .set rd => Sys2Proof.Machine.execSet rd s
  | .addReg rd ra rb => Sys2Proof.Machine.execAddReg rd ra rb s
  | .addsReg rd ra rb => Sys2Proof.Machine.execAddsReg rd ra rb s
  | .subReg rd ra rb => Sys2Proof.Machine.execSubReg rd ra rb s
  | .cmpReg rd ra rb => Sys2Proof.Machine.execCmpReg rd ra rb s
  | .andReg rd ra rb => Sys2Proof.Machine.execAndReg rd ra rb s
  | .andsReg rd ra rb => Sys2Proof.Machine.execAndsReg rd ra rb s
  | .orReg rd ra rb => Sys2Proof.Machine.execOrReg rd ra rb s
  | .orsReg rd ra rb => Sys2Proof.Machine.execOrsReg rd ra rb s
  | .xorReg rd ra rb => Sys2Proof.Machine.execXorReg rd ra rb s
  | .xorsReg rd ra rb => Sys2Proof.Machine.execXorsReg rd ra rb s
  | .not rd ra => Sys2Proof.Machine.execNot rd ra s
  | .b off => Sys2Proof.Machine.execB off s
  | .bCond cond off => Sys2Proof.Machine.execBCond cond off s
  | .br rd off => Sys2Proof.Machine.execBr rd off s
  | .nop => Sys2Proof.Machine.execNop s
  | .halt => Sys2Proof.Machine.execHalt s

end Sys2Proof.Machine
end

