-- ==== Sys2Proof/WellFormed.lean ====
section
/-! DEFINITION. Which instruction terms exist as words: every literal fits its 16-bit field (30_encoding.md R64, R81). Register
numbers and condition codes cannot be out of range: every one of the eight registers may stand in every field (10_state.md R22). -/

namespace Sys2Proof

/-- An unsigned 16-bit literal, 0 .. 65535 (R64 (b), (c); R81). -/
def immOk (imm : Nat) : Bool := imm ≤ 65535

/-- A signed 16-bit literal, -32768 .. 32767 (R64 (d), (e); R81). -/
def offOk (off : Int) : Bool := -32768 ≤ off && off ≤ 32767

/-- The literals of the instruction fit their fields. -/
def Instr.wellFormed : Instr → Bool
  | .load _ _ off | .stor _ _ off => offOk off
  | .mov _ imm | .movt _ imm => immOk imm
  | .addImm _ _ imm | .addsImm _ _ imm | .subImm _ _ imm | .cmpImm _ _ imm => immOk imm
  | .andImm _ _ imm | .andsImm _ _ imm | .orImm _ _ imm | .orsImm _ _ imm => immOk imm
  | .xorImm _ _ imm | .xorsImm _ _ imm => immOk imm
  | .lsl _ _ imm | .lsr _ _ imm => immOk imm
  | .clr _ | .set _ => true
  | .addReg _ _ _ | .addsReg _ _ _ | .subReg _ _ _ | .cmpReg _ _ _ => true
  | .andReg _ _ _ | .andsReg _ _ _ | .orReg _ _ _ | .orsReg _ _ _ => true
  | .xorReg _ _ _ | .xorsReg _ _ _ | .not _ _ => true
  | .b off | .bCond _ off | .br _ off => offOk off
  | .nop | .halt => true

end Sys2Proof
end

