-- ==== Sys2Proof/Decode.lean ====
section
/-! DEFINITION. The decoder (30_encoding.md R76, total on every 32-bit word, refusing by name the words of R77) after the opcode
list of R75, then the encoder (R65) and the host's reading of an opcode-table word. -/

namespace Sys2Proof

/-- Why a word is no instruction: the four groups of R77, and the reading of `x` bits that D3 sets aside. -/
inductive Undefined where
  /-- U-a: class 00, bit 29 set, no such operation. -/
  | noImmediateOp
  /-- U-b: class 01 with bit 29 clear. -/
  | noRegisterForm
  /-- U-c: class 01, bit 29 set, no such operation. -/
  | noRegisterOp
  /-- U-d: class 11, bits [28:25] = 0011. -/
  | noBranchSlot
  /-- An `x` bit is 1: only where X_BITS_IGNORED is false (D3). -/
  | xBitSet
deriving DecidableEq, Repr

/-! ### Fields (R63) and operands (R64) -/

/-- `rd`, w[24:22]. -/
def rdField (w : Word) : Reg := Fin.ofNat 8 (w.extractLsb' 22 3).toNat

/-- `rp`, `rs`, `ra`, w[21:19]. -/
def raField (w : Word) : Reg := Fin.ofNat 8 (w.extractLsb' 19 3).toNat

/-- `rb`, w[18:16]. -/
def rbField (w : Word) : Reg := Fin.ofNat 8 (w.extractLsb' 16 3).toNat

/-- `imm16`, w[15:0], unsigned (R64 (a), (b), (c)). -/
def immField (w : Word) : Nat := (w.extractLsb' 0 16).toNat

/-- `off16`, and the `imm16` of B and B.cond: w[15:0], signed (R64 (d), (e)). -/
def offField (w : Word) : Int := (w.extractLsb' 0 16).toInt

/-- The condition code with a given encoding (10_state.md R29). -/
def Cond.ofCode (c : BitVec 4) : Cond :=
  match c.toNat with
  | 0 => .eq | 1 => .ne | 2 => .cs | 3 => .cc | 4 => .mi | 5 => .pl | 6 => .vs | 7 => .vc
  | 8 => .hi | 9 => .ls | 10 => .ge | 11 => .lt | 12 => .gt | 13 => .le | 14 => .al | _ => .nv

/-- The encoding of a condition code (R29). -/
def Cond.code : Cond → BitVec 4
  | .eq => 0b0000 | .ne => 0b0001 | .cs => 0b0010 | .cc => 0b0011
  | .mi => 0b0100 | .pl => 0b0101 | .vs => 0b0110 | .vc => 0b0111
  | .hi => 0b1000 | .ls => 0b1001 | .ge => 0b1010 | .lt => 0b1011
  | .gt => 0b1100 | .le => 0b1101 | .al => 0b1110 | .nv => 0b1111

/-- `cond`, w[24:21]. -/
def condField (w : Word) : Cond := Cond.ofCode (w.extractLsb' 21 4)

/-! ### The opcode list (R75), written apart from the decoder and the encoder -/

/-- A row of R75: the bits the figure fixes, and their values. -/
structure OpcodeRow where
  mnemonic : String
  value : Word
  mask : Word
deriving DecidableEq, Repr

/-- `w` is a word of the row (R75: `(w AND mask) == match`). -/
def OpcodeRow.matches (r : OpcodeRow) (w : Word) : Bool := w &&& r.mask == r.value

/-- The row an instruction belongs to (R75). -/
def Instr.row : Instr → OpcodeRow
  | .load _ _ _ => ⟨"LOAD", 0x80000000, 0xC2000000⟩
  | .stor _ _ _ => ⟨"STOR", 0x82000000, 0xC2000000⟩
  | .mov _ _ => ⟨"MOV", 0x00000000, 0xEE000000⟩
  | .movt _ _ => ⟨"MOVT", 0x02000000, 0xEE000000⟩
  | .addImm _ _ _ => ⟨"ADD__imm", 0x22000000, 0xFE000000⟩
  | .addsImm _ _ _ => ⟨"ADDS__imm", 0x32000000, 0xFE000000⟩
  | .subImm _ _ _ => ⟨"SUB__imm", 0x24000000, 0xFE000000⟩
  | .cmpImm _ _ _ => ⟨"CMP__imm", 0x34000000, 0xFE000000⟩
  | .andImm _ _ _ => ⟨"AND__imm", 0x26000000, 0xFE000000⟩
  | .andsImm _ _ _ => ⟨"ANDS__imm", 0x36000000, 0xFE000000⟩
  | .orImm _ _ _ => ⟨"OR__imm", 0x28000000, 0xFE000000⟩
  | .orsImm _ _ _ => ⟨"ORS__imm", 0x38000000, 0xFE000000⟩
  | .xorImm _ _ _ => ⟨"XOR__imm", 0x2A000000, 0xFE000000⟩
  | .xorsImm _ _ _ => ⟨"XORS__imm", 0x3A000000, 0xFE000000⟩
  | .lsl _ _ _ => ⟨"LSL", 0x08000000, 0xEA000000⟩
  | .lsr _ _ _ => ⟨"LSR", 0x0A000000, 0xEA000000⟩
  | .clr _ => ⟨"CLR", 0x04000000, 0xEE000000⟩
  | .set _ => ⟨"SET", 0x06000000, 0xEE000000⟩
  | .addReg _ _ _ => ⟨"ADD__reg", 0x62000000, 0xFE000000⟩
  | .addsReg _ _ _ => ⟨"ADDS__reg", 0x72000000, 0xFE000000⟩
  | .subReg _ _ _ => ⟨"SUB__reg", 0x64000000, 0xFE000000⟩
  | .cmpReg _ _ _ => ⟨"CMP__reg", 0x74000000, 0xFE000000⟩
  | .andReg _ _ _ => ⟨"AND__reg", 0x66000000, 0xFE000000⟩
  | .andsReg _ _ _ => ⟨"ANDS__reg", 0x76000000, 0xFE000000⟩
  | .orReg _ _ _ => ⟨"OR__reg", 0x68000000, 0xFE000000⟩
  | .orsReg _ _ _ => ⟨"ORS__reg", 0x78000000, 0xFE000000⟩
  | .xorReg _ _ _ => ⟨"XOR__reg", 0x6A000000, 0xFE000000⟩
  | .xorsReg _ _ _ => ⟨"XORS__reg", 0x7A000000, 0xFE000000⟩
  | .not _ _ => ⟨"NOT", 0x6C000000, 0xFE000000⟩
  | .b _ => ⟨"B", 0xC0000000, 0xDE000000⟩
  | .bCond _ _ => ⟨"B.cond", 0xC2000000, 0xDE000000⟩
  | .br _ _ => ⟨"BR", 0xC4000000, 0xDE000000⟩
  | .nop => ⟨"NOP", 0xC8000000, 0xD8000000⟩
  | .halt => ⟨"HALT", 0xD0000000, 0xD0000000⟩

/-- The bits of its word that hold the instruction's fields (R63, R65); the bits outside these and the row's mask are drawn `x`. -/
def Instr.fieldMask : Instr → Word
  | .load _ _ _ | .stor _ _ _ => 0x01F8FFFF
  | .mov _ _ | .movt _ _ => 0x01C0FFFF
  | .addImm _ _ _ | .addsImm _ _ _ | .subImm _ _ _ | .cmpImm _ _ _ => 0x01F8FFFF
  | .andImm _ _ _ | .andsImm _ _ _ | .orImm _ _ _ | .orsImm _ _ _ => 0x01F8FFFF
  | .xorImm _ _ _ | .xorsImm _ _ _ => 0x01F8FFFF
  | .lsl _ _ _ | .lsr _ _ _ => 0x01F8FFFF
  | .clr _ | .set _ => 0x01C00000
  | .addReg _ _ _ | .addsReg _ _ _ | .subReg _ _ _ | .cmpReg _ _ _ => 0x01FF0000
  | .andReg _ _ _ | .andsReg _ _ _ | .orReg _ _ _ | .orsReg _ _ _ => 0x01FF0000
  | .xorReg _ _ _ | .xorsReg _ _ _ => 0x01FF0000
  | .not _ _ => 0x01F80000
  | .b _ => 0x0000FFFF
  | .bCond _ _ => 0x01E0FFFF
  | .br _ _ => 0x01C0FFFF
  | .nop | .halt => 0x00000000

/-- Every `x` bit of the word is 0, as the instruction's figure draws them (R62). -/
def Instr.xBitsClear (i : Instr) (w : Word) : Bool := w &&& ~~~(i.row.mask ||| i.fieldMask) == 0

/-! ### The decode procedure (R76) -/

/-- Class 00. With bit 29 clear, bit 28 is ignored, and bit 26 too in a shift; with bit 29 set, bit 28 is S. -/
def decodeImmediate (w : Word) : Except Undefined Instr :=
  match w[29], w[27], w[26], w[25] with
  | false, false, false, false => .ok (.mov (rdField w) (immField w))
  | false, false, false, true => .ok (.movt (rdField w) (immField w))
  | false, false, true, false => .ok (.clr (rdField w))
  | false, false, true, true => .ok (.set (rdField w))
  | false, true, _, false => .ok (.lsl (rdField w) (raField w) (immField w))
  | false, true, _, true => .ok (.lsr (rdField w) (raField w) (immField w))
  | true, false, false, true =>
    if w[28] then .ok (.addsImm (rdField w) (raField w) (immField w))
    else .ok (.addImm (rdField w) (raField w) (immField w))
  | true, false, true, false =>
    if w[28] then .ok (.cmpImm (rdField w) (raField w) (immField w))
    else .ok (.subImm (rdField w) (raField w) (immField w))
  | true, false, true, true =>
    if w[28] then .ok (.andsImm (rdField w) (raField w) (immField w))
    else .ok (.andImm (rdField w) (raField w) (immField w))
  | true, true, false, false =>
    if w[28] then .ok (.orsImm (rdField w) (raField w) (immField w))
    else .ok (.orImm (rdField w) (raField w) (immField w))
  | true, true, false, true =>
    if w[28] then .ok (.xorsImm (rdField w) (raField w) (immField w))
    else .ok (.xorImm (rdField w) (raField w) (immField w))
  | true, false, false, false => .error .noImmediateOp
  | true, true, true, false => .error .noImmediateOp
  | true, true, true, true => .error .noImmediateOp

/-- Class 01. -/
def decodeRegister (w : Word) : Except Undefined Instr :=
  match w[29], w[27], w[26], w[25] with
  | false, _, _, _ => .error .noRegisterForm
  | true, false, false, true =>
    if w[28] then .ok (.addsReg (rdField w) (raField w) (rbField w))
    else .ok (.addReg (rdField w) (raField w) (rbField w))
  | true, false, true, false =>
    if w[28] then .ok (.cmpReg (rdField w) (raField w) (rbField w))
    else .ok (.subReg (rdField w) (raField w) (rbField w))
  | true, false, true, true =>
    if w[28] then .ok (.andsReg (rdField w) (raField w) (rbField w))
    else .ok (.andReg (rdField w) (raField w) (rbField w))
  | true, true, false, false =>
    if w[28] then .ok (.orsReg (rdField w) (raField w) (rbField w))
    else .ok (.orReg (rdField w) (raField w) (rbField w))
  | true, true, false, true =>
    if w[28] then .ok (.xorsReg (rdField w) (raField w) (rbField w))
    else .ok (.xorReg (rdField w) (raField w) (rbField w))
  | true, true, true, false =>
    if w[28] then .error .noRegisterOp
    else .ok (.not (rdField w) (raField w))
  | true, false, false, false => .error .noRegisterOp
  | true, true, true, true => .error .noRegisterOp

/-- Class 11; bit 29 is ignored. -/
def decodeSystem (w : Word) : Except Undefined Instr :=
  match w[28], w[27], w[26], w[25] with
  | true, _, _, _ => .ok .halt
  | false, true, _, _ => .ok .nop
  | false, false, false, false => .ok (.b (offField w))
  | false, false, false, true => .ok (.bCond (condField w) (offField w))
  | false, false, true, false => .ok (.br (rdField w) (offField w))
  | false, false, true, true => .error .noBranchSlot

/-- The procedure of R76, which looks at no `x` bit. -/
def decodeFixed (w : Word) : Except Undefined Instr :=
  match w[31], w[30] with
  | true, false =>
    if w[25] then .ok (.stor (rdField w) (raField w) (offField w))
    else .ok (.load (rdField w) (raField w) (offField w))
  | false, false => decodeImmediate w
  | false, true => decodeRegister w
  | true, true => decodeSystem w

/-- The instruction a word is, or why it is none (R76, R77), the `x` bits ignored as X_BITS_IGNORED says (R62, D3). -/
def decode (w : Word) : Except Undefined Instr :=
  match decodeFixed w with
  | .ok i => if Machine.config.xBitsIgnored || i.xBitsClear w then .ok i else .error .xBitSet
  | .error e => .error e

/-! ### The encoder (R65); every x bit is 0 (R62, R81) -/

/-- A word from its parts: bits [31:25], [24:22], [21:19], [18:16], [15:0]. -/
def layout (op : BitVec 7) (d a b : BitVec 3) (low : BitVec 16) : Word := op ++ d ++ a ++ b ++ low

/-- A register number in its 3-bit field (R63). -/
def regBits (r : Reg) : BitVec 3 := BitVec.ofNat 3 r.val

/-- An unsigned literal in its 16-bit field. -/
def immBits (imm : Nat) : BitVec 16 := BitVec.ofNat 16 imm

/-- A signed literal in its 16-bit field. -/
def offBits (off : Int) : BitVec 16 := BitVec.ofInt 16 off

/-- Format `ALUI`, `SHI`, `LS` without their offset: rd, ra, 000 and the low half. -/
def encodeRRI (op : BitVec 7) (rd ra : Reg) (low : BitVec 16) : Word :=
  layout op (regBits rd) (regBits ra) 0 low

/-- Format `ALUR`: rd, ra, rb and a low half of zeros. -/
def encodeRRR (op : BitVec 7) (rd ra rb : Reg) : Word :=
  layout op (regBits rd) (regBits ra) (regBits rb) 0

/-- The canonical word of an instruction (R65, R75). -/
def encode : Instr → Word
  | .load rd rp off => encodeRRI 0b1000000 rd rp (offBits off)
  | .stor rd rp off => encodeRRI 0b1000001 rd rp (offBits off)
  | .mov rd imm => layout 0b0000000 (regBits rd) 0 0 (immBits imm)
  | .movt rd imm => layout 0b0000001 (regBits rd) 0 0 (immBits imm)
  | .addImm rd ra imm => encodeRRI 0b0010001 rd ra (immBits imm)
  | .addsImm rd ra imm => encodeRRI 0b0011001 rd ra (immBits imm)
  | .subImm rd ra imm => encodeRRI 0b0010010 rd ra (immBits imm)
  | .cmpImm rd ra imm => encodeRRI 0b0011010 rd ra (immBits imm)
  | .andImm rd ra imm => encodeRRI 0b0010011 rd ra (immBits imm)
  | .andsImm rd ra imm => encodeRRI 0b0011011 rd ra (immBits imm)
  | .orImm rd ra imm => encodeRRI 0b0010100 rd ra (immBits imm)
  | .orsImm rd ra imm => encodeRRI 0b0011100 rd ra (immBits imm)
  | .xorImm rd ra imm => encodeRRI 0b0010101 rd ra (immBits imm)
  | .xorsImm rd ra imm => encodeRRI 0b0011101 rd ra (immBits imm)
  | .lsl rd rs imm => encodeRRI 0b0000100 rd rs (immBits imm)
  | .lsr rd rs imm => encodeRRI 0b0000101 rd rs (immBits imm)
  | .clr rd => layout 0b0000010 (regBits rd) 0 0 0
  | .set rd => layout 0b0000011 (regBits rd) 0 0 0
  | .addReg rd ra rb => encodeRRR 0b0110001 rd ra rb
  | .addsReg rd ra rb => encodeRRR 0b0111001 rd ra rb
  | .subReg rd ra rb => encodeRRR 0b0110010 rd ra rb
  | .cmpReg rd ra rb => encodeRRR 0b0111010 rd ra rb
  | .andReg rd ra rb => encodeRRR 0b0110011 rd ra rb
  | .andsReg rd ra rb => encodeRRR 0b0111011 rd ra rb
  | .orReg rd ra rb => encodeRRR 0b0110100 rd ra rb
  | .orsReg rd ra rb => encodeRRR 0b0111100 rd ra rb
  | .xorReg rd ra rb => encodeRRR 0b0110101 rd ra rb
  | .xorsReg rd ra rb => encodeRRR 0b0111101 rd ra rb
  | .not rd ra => layout 0b0110110 (regBits rd) (regBits ra) 0 0
  | .b off => layout 0b1100000 0 0 0 (offBits off)
  | .bCond c off => layout 0b1100001 (c.code.extractLsb' 1 3) (c.code.extractLsb' 0 1 ++ 0#2) 0 (offBits off)
  | .br rd off => layout 0b1100010 (regBits rd) 0 0 (offBits off)
  | .nop => layout 0b1100100 0 0 0 0
  | .halt => layout 0b1101000 0 0 0 0

/-! ### The host's reading of an opcode-table word -/

/-- The 32-bit word whose low `nbits` bits are those of `w` and whose other bits are 0. An instruction is one cell and its bit 31 is
the cell's bit 31 (R46, R60), so the table's numbering is the cell's own. -/
def tableWord (nbits w : Nat) : Word := BitVec.ofNat 32 (w % 2 ^ nbits)

/-- What the decoder reads from an opcode-table word. -/
def decodeTableWord (nbits w : Nat) : Option Instr :=
  match decode (tableWord nbits w) with
  | .ok i => some i
  | .error _ => none

end Sys2Proof
end

