-- ==== Sys2Proof/Machine/Fetch.lean ====
section
/-! DEFINITION. Parts (1) and (2) of a step (60_exceptions.md R170): fetching the word at the pc and decoding it. -/

namespace Sys2Proof.Machine

/-- `w = MemRead(pc, 4)` (R170 (1)). -/
def State.fetchWord (s : State) : Except Fault Word := s.memRead .fetch s.pc

/-- The instruction the CPU executes next, or why it takes no step: it is halted (R31, R170), the fetch fails (R174, R175), or the
word is no instruction (R173), in that order (R178). -/
def State.nextInstr (s : State) : Except Fault Instr :=
  if s.halted then .error .cpuStopped
  else
    match s.fetchWord with
    | .error f => .error f
    | .ok w =>
      match decode w with
      | .ok i => .ok i
      | .error _ => .error (.undefinedInstruction w s.pc)

end Sys2Proof.Machine
end

