-- ==== Sys2Proof/Machine/Step.lean ====
section
/-! DEFINITION. One step of the CPU (60_exceptions.md R170), and the host's placing of an instruction where it is fetched. -/

namespace Sys2Proof.Machine

/-- A step: fetch and decode, then execute; where there is no instruction to execute, the reason, with nothing written (R172). -/
def step (s : State) : Host.Outcome State Fault Refusal :=
  match s.nextInstr with
  | .ok i => exec i s
  | .error f => .fault f

/-- `s` with the opcode-table word placed where `step` fetches next. -/
def State.withFetchWord (s : State) (nbits w : Nat) : State := s.placeAtPc (tableWord nbits w)

end Sys2Proof.Machine
end

