-- ==== Sys2Proof/Safety.lean ====
section
/-! DEFINITION. What counts as a good state and a good run, and the tables and frames that claims are stated in: which registers an
instruction reads and writes (10_state.md R23), which instructions write the flags (R28), what each leaves unchanged. -/

namespace Sys2Proof

/-- The register an instruction writes (the "w" of R23's table). -/
def Instr.dest : Instr → Option Reg
  | .load rd _ _ | .mov rd _ | .movt rd _ | .clr rd | .set rd => some rd
  | .addImm rd _ _ | .addsImm rd _ _ | .subImm rd _ _ | .cmpImm rd _ _ => some rd
  | .andImm rd _ _ | .andsImm rd _ _ | .orImm rd _ _ | .orsImm rd _ _ => some rd
  | .xorImm rd _ _ | .xorsImm rd _ _ | .lsl rd _ _ | .lsr rd _ _ => some rd
  | .addReg rd _ _ | .addsReg rd _ _ | .subReg rd _ _ | .cmpReg rd _ _ => some rd
  | .andReg rd _ _ | .andsReg rd _ _ | .orReg rd _ _ | .orsReg rd _ _ => some rd
  | .xorReg rd _ _ | .xorsReg rd _ _ | .not rd _ => some rd
  | .stor _ _ _ | .b _ | .bCond _ _ | .br _ _ | .nop | .halt => none

/-- The registers an instruction reads (the "r" of R23's table). -/
def Instr.sources : Instr → List Reg
  | .load _ rp _ => [rp]
  | .stor rd rp _ => [rd, rp]
  | .mov rd _ | .movt rd _ => [rd]
  | .clr _ | .set _ => []
  | .addImm _ ra _ | .addsImm _ ra _ | .subImm _ ra _ | .cmpImm _ ra _ => [ra]
  | .andImm _ ra _ | .andsImm _ ra _ | .orImm _ ra _ | .orsImm _ ra _ => [ra]
  | .xorImm _ ra _ | .xorsImm _ ra _ | .lsl _ ra _ | .lsr _ ra _ | .not _ ra => [ra]
  | .addReg _ ra rb | .addsReg _ ra rb | .subReg _ ra rb | .cmpReg _ ra rb => [ra, rb]
  | .andReg _ ra rb | .andsReg _ ra rb | .orReg _ ra rb | .orsReg _ ra rb => [ra, rb]
  | .xorReg _ ra rb | .xorsReg _ ra rb => [ra, rb]
  | .br rd _ => [rd]
  | .b _ | .bCond _ _ | .nop | .halt => []

/-- The ten instructions that write the flags (R28). -/
def Instr.setsFlags : Instr → Bool
  | .addsImm _ _ _ | .cmpImm _ _ _ | .andsImm _ _ _ | .orsImm _ _ _ | .xorsImm _ _ _ => true
  | .addsReg _ _ _ | .cmpReg _ _ _ | .andsReg _ _ _ | .orsReg _ _ _ | .xorsReg _ _ _ => true
  | .load _ _ _ | .stor _ _ _ | .mov _ _ | .movt _ _ | .clr _ | .set _ | .lsl _ _ _ | .lsr _ _ _ => false
  | .addImm _ _ _ | .subImm _ _ _ | .andImm _ _ _ | .orImm _ _ _ | .xorImm _ _ _ => false
  | .addReg _ _ _ | .subReg _ _ _ | .andReg _ _ _ | .orReg _ _ _ | .xorReg _ _ _ | .not _ _ => false
  | .b _ | .bCond _ _ | .br _ _ | .nop | .halt => false

namespace Machine

/-- Every byte of memory reads as before. -/
def SameMemory (s t : State) : Prop := ∀ k, t.mem.byte k = s.mem.byte k

/-- Every byte of memory outside the cell `a` reads as before. -/
def SameMemoryOutside (a : Word) (s t : State) : Prop :=
  ∀ k, ¬ (cellKey a ≤ k ∧ k < cellKey a + 4) → t.mem.byte k = s.mem.byte k

/-- Every register holds what it held. -/
def SameRegs (s t : State) : Prop := ∀ r, t.reg r = s.reg r

/-- What an instruction that writes only `rd` (and perhaps the flags) leaves as it was, and where its pc goes: `pc <- pc + ISTEP`
(R22, R25; ISTEP is log entry 10). -/
def DataFrame (rd : Reg) (s t : State) : Prop :=
  (∀ r, r ≠ rd → t.reg r = s.reg r) ∧ t.pc = s.pc + config.istep ∧ t.halted = s.halted ∧ t.memDomain = s.memDomain ∧ SameMemory s t

/-- What a branch leaves as it was: everything but the pc (R155). -/
def BranchFrame (s t : State) : Prop :=
  SameRegs s t ∧ t.flags = s.flags ∧ t.halted = s.halted ∧ t.memDomain = s.memDomain ∧ SameMemory s t

/-- N and Z of a result; C and V 0 (R14). -/
def LogicFlagsOf (r : Word) (f : Flags) : Prop :=
  (f.n = true ↔ 2 ^ 31 ≤ r.toNat) ∧ (f.z = true ↔ r.toNat = 0) ∧ f.c = false ∧ f.v = false

/-- The words `w` with `w AND mask = value` are instructions, and `w` is the one `mk w` (30_encoding.md R75; the bits outside the mask
and the fields are ignored, R62, log entry 20). -/
def RowDecodes (value mask : Word) (mk : Word → Instr) : Prop :=
  ∀ w : Word, w &&& mask = value → decode w = .ok (mk w)

/-- The final state of a run (60_exceptions.md R176). -/
def State.final (s : State) : Prop := s.halted = true

/-- What every step keeps. -/
structure State.Inv (s : State) : Prop where
  /-- Memory is in its canonical form. -/
  canonical : s.mem.wf
  /-- Nothing is stored outside MEM_DOMAIN (20_memory.md R44, R47). -/
  implemented : ∀ e ∈ s.mem, ∃ a, s.implements a = true ∧ cellKey a ≤ e.1 ∧ e.1 < cellKey a + 4
  /-- A cell is written whole or not at all (R44, R45). -/
  whole : ∀ a j, j < 4 → (s.mem.byte (cellKey a + j)).isSome = true → (s.mem.readCell a).isSome = true

end Machine

/-- Executed on `s`, the instruction accesses the data cell `a`: it is a LOAD from there or a STOR to there (R100, R101). -/
def Instr.Accesses (i : Instr) (s : Machine.State) (k : Machine.Access) (a : Word) : Prop :=
  (∃ rd rp off, i = .load rd rp off ∧ a = s.offsetAddress rp off ∧ k = .load) ∨
  (∃ rd rp off, i = .stor rd rp off ∧ a = s.offsetAddress rp off ∧ k = .store)

end Sys2Proof
end

