-- ==== Sys2Proof/Certificates/Slice0/Obligations.lean ====
section
/-! DEFINITION. The statements for the provers, from the numbered rules of spec/. In an instruction's statement the clause
`RowDecodes` is the rule's encoding line; the conclusion `exec … = .next t` says that the instruction completes. -/

open Sys2Proof Sys2Proof.Machine

/-! ### The step, decoding and encoding -/

/-- R170, parts (1) to (3): the instruction a step runs is the one the cell at the pc decodes to, and the step is its `exec`.
Rests on the spec's own D23 (log entry 22). -/
def Obligations.StepRunsDecodedInstruction : Prop :=
  ∀ (s : State) (w : Word) (i : Instr), s.halted = false → s.implements s.pc = true → s.mem.readCell s.pc = some w →
    decode w = .ok i → i.wellFormed = true ∧ step s = exec i s

/-- Words written out bit by bit from the figures (T1 of 95_test_vectors.md), one or more of each class. -/
def Obligations.SomeWordsDecode : Prop :=
  decode 0b10000000010100001111111111111100#32 = .ok (.load 1 2 (-4)) ∧
  decode 0b10000010111000000000000000000010#32 = .ok (.stor 3 4 2) ∧
  decode 0b00000000010000000001001000110100#32 = .ok (.mov 1 0x1234) ∧
  decode 0b00110101110010000000000000001010#32 = .ok (.cmpImm 7 1 10) ∧
  decode 0b00001010100010000000000000000100#32 = .ok (.lsr 2 1 4) ∧
  decode 0b01100010110010100000000000000000#32 = .ok (.addReg 3 1 2) ∧
  decode 0b01101100110010000000000000000000#32 = .ok (.not 3 1) ∧
  decode 0b11000010001000001111111111111101#32 = .ok (.bCond .ne (-3)) ∧
  decode 0b11000101100000001111111111111111#32 = .ok (.br 6 (-1)) ∧
  decode 0b11010000000000000000000000000000#32 = .ok .halt ∧
  decode 0b01000000000000000000000000000000#32 = .error .noRegisterForm

/-- R75: a word is the instruction of a row exactly when `(w AND mask) == match`, and no two rows match one word. Read by the
spec from the figures; `x` bits by its D3 (log entry 20). -/
def Obligations.OpcodeListDecides : Prop :=
  (∀ (w : Word) (i : Instr), decode w = .ok i → i.row.matches w = true) ∧
  (∀ (w : Word) (i : Instr), i.row.matches w = true → ∃ j, decode w = .ok j ∧ j.row = i.row) ∧
  (∀ (w : Word) (i j : Instr), i.row.matches w = true → j.row.matches w = true → i.row = j.row)

/-- R77: the undefined words are exactly those whose bits [31:25] take one of 29 values, in four groups. That such a word is no
instruction is the spec's own D4 (log entry 24), and that no word is refused for its `x` bits its D3 (log entry 20). -/
def Obligations.UndefinedWordsAreExactlyThese : Prop :=
  ∀ w : Word,
    (decode w = .error .noImmediateOp ↔ (w.extractLsb' 25 7).toNat ∈ [0x10, 0x16, 0x17, 0x18, 0x1E, 0x1F]) ∧
    (decode w = .error .noRegisterForm ↔ (w.extractLsb' 25 7).toNat ∈
      [0x20, 0x21, 0x22, 0x23, 0x24, 0x25, 0x26, 0x27, 0x28, 0x29, 0x2A, 0x2B, 0x2C, 0x2D, 0x2E, 0x2F]) ∧
    (decode w = .error .noRegisterOp ↔ (w.extractLsb' 25 7).toNat ∈ [0x30, 0x37, 0x38, 0x3E, 0x3F]) ∧
    (decode w = .error .noBranchSlot ↔ (w.extractLsb' 25 7).toNat ∈ [0x63, 0x73]) ∧
    decode w ≠ .error .xBitSet

/-- R62: every value of the `x` bits of a word selects the same instruction. The spec's own D3 (log entry 20). -/
def Obligations.DontCareBitsAreIgnored : Prop :=
  ∀ (w w' : Word) (i : Instr), decode w = .ok i → (w ^^^ w') &&& (i.row.mask ||| i.fieldMask) = 0 → decode w' = .ok i

/-- R64, R81: what the decoder gives fits its fields. The ranges are those of the spec's own notation, D27 (log entry 6). -/
def Obligations.DecodedIsWellFormed : Prop :=
  ∀ (w : Word) (i : Instr), decode w = .ok i → i.wellFormed = true

/-- Every well-formed instruction, with every operand its word admits, decodes from its own word (R63, R64, R65). The choice of
`x` bits as 0 is the spec's own D3, D27 (log entries 6, 20). -/
def Obligations.DecodeOfEncode : Prop :=
  ∀ i : Instr, i.wellFormed = true → decode (encode i) = .ok i

/-- The canonical word of an instruction has every `x` bit 0 (R62, R81), and decoding a word and encoding it again keeps every
bit but the `x` bits. The spec's own D3, D27 (log entries 6, 20). -/
def Obligations.EncodeIsCanonical : Prop :=
  (∀ i : Instr, encode i &&& ~~~(i.row.mask ||| i.fieldMask) = 0) ∧
  (∀ (w : Word) (i : Instr), decode w = .ok i → encode i = w &&& (i.row.mask ||| i.fieldMask))

/-! ### Load/store -/

/-- R100, LOAD. A cell nothing has written has no value: `UninitialisedRead` (log entry 3). Word addresses, wrap and MEM_DOMAIN
are the spec's own D5, D6, D10 (log entries 4, 10, 25). -/
def Obligations.LoadReadsCell : Prop :=
  RowDecodes 0x80000000 0xC2000000 (fun w => .load (rdField w) (raField w) (offField w)) ∧
  ∀ (rd rp : Reg) (off : Int) (s : State),
    ((s.offsetAddress rp off).toNat : Int) = ((s.reg rp).toNat + off) % 2 ^ 32 ∧
    (∀ v, s.implements (s.offsetAddress rp off) = true → s.mem.readCell (s.offsetAddress rp off) = some v →
      ∃ t, exec (.load rd rp off) s = .next t ∧ t.reg rd = v ∧ t.flags = s.flags ∧ DataFrame rd s t) ∧
    (s.implements (s.offsetAddress rp off) = true → s.mem.readCell (s.offsetAddress rp off) = none →
      exec (.load rd rp off) s = .fault (.uninitialisedRead (s.offsetAddress rp off) .load s.pc)) ∧
    (s.implements (s.offsetAddress rp off) = false →
      exec (.load rd rp off) s = .fault (.memoryFault (s.offsetAddress rp off) .load s.pc))

/-- R101, STOR. Word addresses, wrap and MEM_DOMAIN are the spec's own D5, D6, D7, D10 (log entries 4, 10, 21, 25). -/
def Obligations.StorWritesCell : Prop :=
  RowDecodes 0x82000000 0xC2000000 (fun w => .stor (rdField w) (raField w) (offField w)) ∧
  ∀ (rd rp : Reg) (off : Int) (s : State),
    ((s.offsetAddress rp off).toNat : Int) = ((s.reg rp).toNat + off) % 2 ^ 32 ∧
    (s.implements (s.offsetAddress rp off) = true →
      ∃ t, exec (.stor rd rp off) s = .next t ∧ t.mem.readCell (s.offsetAddress rp off) = some (s.reg rd) ∧
        SameMemoryOutside (s.offsetAddress rp off) s t ∧ SameRegs s t ∧ t.flags = s.flags ∧ t.pc = s.pc + config.istep ∧
        t.halted = s.halted ∧ t.memDomain = s.memDomain) ∧
    (s.implements (s.offsetAddress rp off) = false →
      exec (.stor rd rp off) s = .fault (.memoryFault (s.offsetAddress rp off) .store s.pc))

/-! ### Data immediate -/

/-- R110, R111: MOV replaces the lower half and keeps the upper; MOVT the other way about. That MOV keeps the upper half is the
spec's own D14 (log entry 16). -/
def Obligations.MovesReplaceOneHalf : Prop :=
  RowDecodes 0x00000000 0xEE000000 (fun w => .mov (rdField w) (immField w)) ∧
  RowDecodes 0x02000000 0xEE000000 (fun w => .movt (rdField w) (immField w)) ∧
  ∀ (rd : Reg) (imm : Nat) (s : State), imm ≤ 65535 →
    (∃ t, exec (.mov rd imm) s = .next t ∧ (t.reg rd).toNat = (s.reg rd).toNat / 65536 * 65536 + imm ∧
      t.flags = s.flags ∧ DataFrame rd s t) ∧
    (∃ t, exec (.movt rd imm) s = .next t ∧ (t.reg rd).toNat = imm * 65536 + (s.reg rd).toNat % 65536 ∧
      t.flags = s.flags ∧ DataFrame rd s t)

/-- R114, R116: ADD and SUB (IMM) wrap and write no flag. The wrap is the spec's own D15 (log entry 25). -/
def Obligations.AddSubImmediateWrap : Prop :=
  RowDecodes 0x22000000 0xFE000000 (fun w => .addImm (rdField w) (raField w) (immField w)) ∧
  RowDecodes 0x24000000 0xFE000000 (fun w => .subImm (rdField w) (raField w) (immField w)) ∧
  ∀ (rd ra : Reg) (imm : Nat) (s : State), imm ≤ 65535 →
    (∃ t, exec (.addImm rd ra imm) s = .next t ∧ (t.reg rd).toNat = ((s.reg ra).toNat + imm) % 2 ^ 32 ∧
      t.flags = s.flags ∧ DataFrame rd s t) ∧
    (∃ t, exec (.subImm rd ra imm) s = .next t ∧ ((t.reg rd).toNat : Int) = ((s.reg ra).toNat - imm : Int) % 2 ^ 32 ∧
      t.flags = s.flags ∧ DataFrame rd s t)

/-- R115: ADDS (IMM) and its four flags. The flags are the spec's own D16, D17 (log entry 13). -/
def Obligations.AddsImmediateSetsFlags : Prop :=
  RowDecodes 0x32000000 0xFE000000 (fun w => .addsImm (rdField w) (raField w) (immField w)) ∧
  ∀ (rd ra : Reg) (imm : Nat) (s : State), imm ≤ 65535 →
    ∃ t, exec (.addsImm rd ra imm) s = .next t ∧ (t.reg rd).toNat = ((s.reg ra).toNat + imm) % 2 ^ 32 ∧
      (t.flags.n = true ↔ 2 ^ 31 ≤ (t.reg rd).toNat) ∧ (t.flags.z = true ↔ (t.reg rd).toNat = 0) ∧
      (t.flags.c = true ↔ 2 ^ 32 ≤ (s.reg ra).toNat + imm) ∧
      (t.flags.v = true ↔ ((s.reg ra).toInt + imm < -2 ^ 31 ∨ 2 ^ 31 - 1 < (s.reg ra).toInt + imm)) ∧ DataFrame rd s t

/-- R117: CMP [SUBS] (IMM) writes the difference and its four flags; C is 1 when no borrow occurred. The flags and the write of
`rd` are the spec's own D16, D17, D20 (log entries 13, 18). -/
def Obligations.CmpImmediateWritesAndSetsFlags : Prop :=
  RowDecodes 0x34000000 0xFE000000 (fun w => .cmpImm (rdField w) (raField w) (immField w)) ∧
  ∀ (rd ra : Reg) (imm : Nat) (s : State), imm ≤ 65535 →
    ∃ t, exec (.cmpImm rd ra imm) s = .next t ∧ ((t.reg rd).toNat : Int) = ((s.reg ra).toNat - imm : Int) % 2 ^ 32 ∧
      (t.flags.n = true ↔ 2 ^ 31 ≤ (t.reg rd).toNat) ∧ (t.flags.z = true ↔ (s.reg ra).toNat = imm) ∧
      (t.flags.c = true ↔ imm ≤ (s.reg ra).toNat) ∧
      (t.flags.v = true ↔ ((s.reg ra).toInt - imm < -2 ^ 31 ∨ 2 ^ 31 - 1 < (s.reg ra).toInt - imm)) ∧ DataFrame rd s t

/-- R118, R120, R122: AND, OR and XOR (IMM), bit by bit, with the zero-extended immediate; no flag is written. -/
def Obligations.LogicImmediateBitwise : Prop :=
  RowDecodes 0x26000000 0xFE000000 (fun w => .andImm (rdField w) (raField w) (immField w)) ∧
  RowDecodes 0x28000000 0xFE000000 (fun w => .orImm (rdField w) (raField w) (immField w)) ∧
  RowDecodes 0x2A000000 0xFE000000 (fun w => .xorImm (rdField w) (raField w) (immField w)) ∧
  ∀ (rd ra : Reg) (imm : Nat) (s : State), imm ≤ 65535 →
    (∃ t, exec (.andImm rd ra imm) s = .next t ∧ (t.reg rd).toNat = (s.reg ra).toNat &&& imm ∧
      t.flags = s.flags ∧ DataFrame rd s t) ∧
    (∃ t, exec (.orImm rd ra imm) s = .next t ∧ (t.reg rd).toNat = (s.reg ra).toNat ||| imm ∧
      t.flags = s.flags ∧ DataFrame rd s t) ∧
    (∃ t, exec (.xorImm rd ra imm) s = .next t ∧ (t.reg rd).toNat = (s.reg ra).toNat ^^^ imm ∧
      t.flags = s.flags ∧ DataFrame rd s t)

/-- R119, R121, R123: ANDS, ORS and XORS (IMM) and their flags (R14). The flags are the spec's own D16, D18 (log entries 13,
17). -/
def Obligations.LogicImmediateSetsFlags : Prop :=
  RowDecodes 0x36000000 0xFE000000 (fun w => .andsImm (rdField w) (raField w) (immField w)) ∧
  RowDecodes 0x38000000 0xFE000000 (fun w => .orsImm (rdField w) (raField w) (immField w)) ∧
  RowDecodes 0x3A000000 0xFE000000 (fun w => .xorsImm (rdField w) (raField w) (immField w)) ∧
  ∀ (rd ra : Reg) (imm : Nat) (s : State), imm ≤ 65535 →
    (∃ t, exec (.andsImm rd ra imm) s = .next t ∧ (t.reg rd).toNat = (s.reg ra).toNat &&& imm ∧
      LogicFlagsOf (t.reg rd) t.flags ∧ t.flags.n = false ∧ DataFrame rd s t) ∧
    (∃ t, exec (.orsImm rd ra imm) s = .next t ∧ (t.reg rd).toNat = (s.reg ra).toNat ||| imm ∧
      LogicFlagsOf (t.reg rd) t.flags ∧ DataFrame rd s t) ∧
    (∃ t, exec (.xorsImm rd ra imm) s = .next t ∧ (t.reg rd).toNat = (s.reg ra).toNat ^^^ imm ∧
      LogicFlagsOf (t.reg rd) t.flags ∧ DataFrame rd s t)

/-- R124, R125: logical shifts by the whole immediate; no flag is written. Shift kind and range are the spec's own D21 (log
entry 19). -/
def Obligations.ShiftsByWholeImmediate : Prop :=
  RowDecodes 0x08000000 0xEA000000 (fun w => .lsl (rdField w) (raField w) (immField w)) ∧
  RowDecodes 0x0A000000 0xEA000000 (fun w => .lsr (rdField w) (raField w) (immField w)) ∧
  ∀ (rd rs : Reg) (n : Nat) (s : State), n ≤ 65535 →
    (∃ t, exec (.lsl rd rs n) s = .next t ∧ (t.reg rd).toNat = (s.reg rs).toNat * 2 ^ n % 2 ^ 32 ∧
      (32 ≤ n → (t.reg rd).toNat = 0) ∧ t.flags = s.flags ∧ DataFrame rd s t) ∧
    (∃ t, exec (.lsr rd rs n) s = .next t ∧ (t.reg rd).toNat = (s.reg rs).toNat / 2 ^ n ∧
      (32 ≤ n → (t.reg rd).toNat = 0) ∧ t.flags = s.flags ∧ DataFrame rd s t)

/-- R126, R127: CLR clears and SET sets all 32 bits, whatever the register held. -/
def Obligations.ClearAndSetAllBits : Prop :=
  RowDecodes 0x04000000 0xEE000000 (fun w => .clr (rdField w)) ∧
  RowDecodes 0x06000000 0xEE000000 (fun w => .set (rdField w)) ∧
  ∀ (rd : Reg) (s : State),
    (∃ t, exec (.clr rd) s = .next t ∧ (t.reg rd).toNat = 0 ∧ t.flags = s.flags ∧ DataFrame rd s t) ∧
    (∃ t, exec (.set rd) s = .next t ∧ (t.reg rd).toNat = 2 ^ 32 - 1 ∧ t.flags = s.flags ∧ DataFrame rd s t)

/-! ### Data register -/

/-- R130, R132: ADD and SUB (REG) wrap and write no flag. The wrap is the spec's own D15 (log entry 25). -/
def Obligations.AddSubRegisterWrap : Prop :=
  RowDecodes 0x62000000 0xFE000000 (fun w => .addReg (rdField w) (raField w) (rbField w)) ∧
  RowDecodes 0x64000000 0xFE000000 (fun w => .subReg (rdField w) (raField w) (rbField w)) ∧
  ∀ (rd ra rb : Reg) (s : State),
    (∃ t, exec (.addReg rd ra rb) s = .next t ∧ (t.reg rd).toNat = ((s.reg ra).toNat + (s.reg rb).toNat) % 2 ^ 32 ∧
      t.flags = s.flags ∧ DataFrame rd s t) ∧
    (∃ t, exec (.subReg rd ra rb) s = .next t ∧
      ((t.reg rd).toNat : Int) = ((s.reg ra).toNat - (s.reg rb).toNat : Int) % 2 ^ 32 ∧
      t.flags = s.flags ∧ DataFrame rd s t)

/-- R131: ADDS (REG) and its four flags. The flags are the spec's own D16, D17 (log entry 13). -/
def Obligations.AddsRegisterSetsFlags : Prop :=
  RowDecodes 0x72000000 0xFE000000 (fun w => .addsReg (rdField w) (raField w) (rbField w)) ∧
  ∀ (rd ra rb : Reg) (s : State),
    ∃ t, exec (.addsReg rd ra rb) s = .next t ∧ (t.reg rd).toNat = ((s.reg ra).toNat + (s.reg rb).toNat) % 2 ^ 32 ∧
      (t.flags.n = true ↔ 2 ^ 31 ≤ (t.reg rd).toNat) ∧ (t.flags.z = true ↔ (t.reg rd).toNat = 0) ∧
      (t.flags.c = true ↔ 2 ^ 32 ≤ (s.reg ra).toNat + (s.reg rb).toNat) ∧
      (t.flags.v = true ↔ ((s.reg ra).toInt + (s.reg rb).toInt < -2 ^ 31 ∨
        2 ^ 31 - 1 < (s.reg ra).toInt + (s.reg rb).toInt)) ∧ DataFrame rd s t

/-- R133: CMP [SUBS] (REG) writes the difference and its four flags; C is 1 when no borrow occurred. The flags and the write of
`rd` are the spec's own D16, D17, D20 (log entries 13, 18). -/
def Obligations.CmpRegisterWritesAndSetsFlags : Prop :=
  RowDecodes 0x74000000 0xFE000000 (fun w => .cmpReg (rdField w) (raField w) (rbField w)) ∧
  ∀ (rd ra rb : Reg) (s : State),
    ∃ t, exec (.cmpReg rd ra rb) s = .next t ∧
      ((t.reg rd).toNat : Int) = ((s.reg ra).toNat - (s.reg rb).toNat : Int) % 2 ^ 32 ∧
      (t.flags.n = true ↔ 2 ^ 31 ≤ (t.reg rd).toNat) ∧ (t.flags.z = true ↔ s.reg ra = s.reg rb) ∧
      (t.flags.c = true ↔ (s.reg rb).toNat ≤ (s.reg ra).toNat) ∧
      (t.flags.v = true ↔ ((s.reg ra).toInt - (s.reg rb).toInt < -2 ^ 31 ∨
        2 ^ 31 - 1 < (s.reg ra).toInt - (s.reg rb).toInt)) ∧ DataFrame rd s t

/-- R134, R136, R138: AND, OR and XOR (REG), bit by bit; no flag is written. -/
def Obligations.LogicRegisterBitwise : Prop :=
  RowDecodes 0x66000000 0xFE000000 (fun w => .andReg (rdField w) (raField w) (rbField w)) ∧
  RowDecodes 0x68000000 0xFE000000 (fun w => .orReg (rdField w) (raField w) (rbField w)) ∧
  RowDecodes 0x6A000000 0xFE000000 (fun w => .xorReg (rdField w) (raField w) (rbField w)) ∧
  ∀ (rd ra rb : Reg) (s : State),
    (∃ t, exec (.andReg rd ra rb) s = .next t ∧ (t.reg rd).toNat = (s.reg ra).toNat &&& (s.reg rb).toNat ∧
      t.flags = s.flags ∧ DataFrame rd s t) ∧
    (∃ t, exec (.orReg rd ra rb) s = .next t ∧ (t.reg rd).toNat = (s.reg ra).toNat ||| (s.reg rb).toNat ∧
      t.flags = s.flags ∧ DataFrame rd s t) ∧
    (∃ t, exec (.xorReg rd ra rb) s = .next t ∧ (t.reg rd).toNat = (s.reg ra).toNat ^^^ (s.reg rb).toNat ∧
      t.flags = s.flags ∧ DataFrame rd s t)

/-- R135, R137, R139: ANDS, ORS and XORS (REG) and their flags (R14). The flags are the spec's own D16, D18 (log entries 13,
17). -/
def Obligations.LogicRegisterSetsFlags : Prop :=
  RowDecodes 0x76000000 0xFE000000 (fun w => .andsReg (rdField w) (raField w) (rbField w)) ∧
  RowDecodes 0x78000000 0xFE000000 (fun w => .orsReg (rdField w) (raField w) (rbField w)) ∧
  RowDecodes 0x7A000000 0xFE000000 (fun w => .xorsReg (rdField w) (raField w) (rbField w)) ∧
  ∀ (rd ra rb : Reg) (s : State),
    (∃ t, exec (.andsReg rd ra rb) s = .next t ∧ (t.reg rd).toNat = (s.reg ra).toNat &&& (s.reg rb).toNat ∧
      LogicFlagsOf (t.reg rd) t.flags ∧ DataFrame rd s t) ∧
    (∃ t, exec (.orsReg rd ra rb) s = .next t ∧ (t.reg rd).toNat = (s.reg ra).toNat ||| (s.reg rb).toNat ∧
      LogicFlagsOf (t.reg rd) t.flags ∧ DataFrame rd s t) ∧
    (∃ t, exec (.xorsReg rd ra rb) s = .next t ∧ (t.reg rd).toNat = (s.reg ra).toNat ^^^ (s.reg rb).toNat ∧
      LogicFlagsOf (t.reg rd) t.flags ∧ DataFrame rd s t)

/-- R140: NOT is the one's complement; with bit [28] set the word is undefined. -/
def Obligations.NotIsOnesComplement : Prop :=
  RowDecodes 0x6C000000 0xFE000000 (fun w => .not (rdField w) (raField w)) ∧
  (∀ w : Word, w &&& 0xFE000000 = 0x7C000000 → decode w = .error .noRegisterOp) ∧
  (∀ w : Word, w &&& 0xEE000000 = 0x2C000000 → decode w = .error .noImmediateOp) ∧
  ∀ (rd ra : Reg) (s : State),
    ∃ t, exec (.not rd ra) s = .next t ∧ (t.reg rd).toNat = 2 ^ 32 - 1 - (s.reg ra).toNat ∧
      t.flags = s.flags ∧ DataFrame rd s t

/-- R113: each flag-setting instruction does what its plain partner does, and writes the flags besides. The spec's own D20 (log
entry 18). -/
def Obligations.FlagSettingPairs : Prop :=
  ∀ (rd ra rb : Reg) (imm : Nat) (s : State),
    (∃ t f, exec (.addImm rd ra imm) s = .next t ∧ exec (.addsImm rd ra imm) s = .next (t.setFlags f)) ∧
    (∃ t f, exec (.subImm rd ra imm) s = .next t ∧ exec (.cmpImm rd ra imm) s = .next (t.setFlags f)) ∧
    (∃ t f, exec (.andImm rd ra imm) s = .next t ∧ exec (.andsImm rd ra imm) s = .next (t.setFlags f)) ∧
    (∃ t f, exec (.orImm rd ra imm) s = .next t ∧ exec (.orsImm rd ra imm) s = .next (t.setFlags f)) ∧
    (∃ t f, exec (.xorImm rd ra imm) s = .next t ∧ exec (.xorsImm rd ra imm) s = .next (t.setFlags f)) ∧
    (∃ t f, exec (.addReg rd ra rb) s = .next t ∧ exec (.addsReg rd ra rb) s = .next (t.setFlags f)) ∧
    (∃ t f, exec (.subReg rd ra rb) s = .next t ∧ exec (.cmpReg rd ra rb) s = .next (t.setFlags f)) ∧
    (∃ t f, exec (.andReg rd ra rb) s = .next t ∧ exec (.andsReg rd ra rb) s = .next (t.setFlags f)) ∧
    (∃ t f, exec (.orReg rd ra rb) s = .next t ∧ exec (.orsReg rd ra rb) s = .next (t.setFlags f)) ∧
    (∃ t f, exec (.xorReg rd ra rb) s = .next t ∧ exec (.xorsReg rd ra rb) s = .next (t.setFlags f))

/-! ### System and branch -/

/-- R150: B adds its signed immediate to its own address. The base of the offset is the spec's own D12 (log entry 12). -/
def Obligations.BranchIsRelativeToItself : Prop :=
  RowDecodes 0xC0000000 0xDE000000 (fun w => .b (offField w)) ∧
  ∀ (off : Int) (s : State),
    ∃ t, exec (.b off) s = .next t ∧ (t.pc.toNat : Int) = (s.pc.toNat + off) % 2 ^ 32 ∧ BranchFrame s t

/-- R151: B.cond branches as B does when its condition holds, and else falls through. The base of the offset and the table are
the spec's own D12, D19 (log entries 12, 15). -/
def Obligations.ConditionalBranch : Prop :=
  RowDecodes 0xC2000000 0xDE000000 (fun w => .bCond (condField w) (offField w)) ∧
  ∀ (c : Cond) (off : Int) (s : State),
    ∃ t, exec (.bCond c off) s = .next t ∧
      (condHolds c s.flags = true → (t.pc.toNat : Int) = (s.pc.toNat + off) % 2 ^ 32) ∧
      (condHolds c s.flags = false → t.pc = s.pc + config.istep) ∧ BranchFrame s t

/-- R29: the condition table, each code by its encoding. The table is the spec's own D19, from general knowledge (log entry 15). -/
def Obligations.ConditionTable : Prop :=
  ∀ (f : Flags),
    condHolds (Cond.ofCode 0b0000) f = decide (f.z = true) ∧
    condHolds (Cond.ofCode 0b0001) f = decide (f.z = false) ∧
    condHolds (Cond.ofCode 0b0010) f = decide (f.c = true) ∧
    condHolds (Cond.ofCode 0b0011) f = decide (f.c = false) ∧
    condHolds (Cond.ofCode 0b0100) f = decide (f.n = true) ∧
    condHolds (Cond.ofCode 0b0101) f = decide (f.n = false) ∧
    condHolds (Cond.ofCode 0b0110) f = decide (f.v = true) ∧
    condHolds (Cond.ofCode 0b0111) f = decide (f.v = false) ∧
    condHolds (Cond.ofCode 0b1000) f = decide (f.c = true ∧ f.z = false) ∧
    condHolds (Cond.ofCode 0b1001) f = decide (¬ (f.c = true ∧ f.z = false)) ∧
    condHolds (Cond.ofCode 0b1010) f = decide (f.n = f.v) ∧
    condHolds (Cond.ofCode 0b1011) f = decide (f.n ≠ f.v) ∧
    condHolds (Cond.ofCode 0b1100) f = decide (f.z = false ∧ f.n = f.v) ∧
    condHolds (Cond.ofCode 0b1101) f = decide (¬ (f.z = false ∧ f.n = f.v)) ∧
    condHolds (Cond.ofCode 0b1110) f = true ∧ condHolds (Cond.ofCode 0b1111) f = true

/-- R29's column "meaning after a CMP a, b": the conditions after a CMP (REG), on the values compared. The spec's own D17, D19
(log entries 13, 15). -/
def Obligations.ConditionsAfterCompare : Prop :=
  ∀ (rd ra rb : Reg) (s : State), ∃ t, exec (.cmpReg rd ra rb) s = .next t ∧
    (condHolds .eq t.flags = true ↔ s.reg ra = s.reg rb) ∧
    (condHolds .ne t.flags = true ↔ s.reg ra ≠ s.reg rb) ∧
    (condHolds .cs t.flags = true ↔ (s.reg rb).toNat ≤ (s.reg ra).toNat) ∧
    (condHolds .cc t.flags = true ↔ (s.reg ra).toNat < (s.reg rb).toNat) ∧
    (condHolds .hi t.flags = true ↔ (s.reg rb).toNat < (s.reg ra).toNat) ∧
    (condHolds .ls t.flags = true ↔ (s.reg ra).toNat ≤ (s.reg rb).toNat) ∧
    (condHolds .ge t.flags = true ↔ (s.reg rb).toInt ≤ (s.reg ra).toInt) ∧
    (condHolds .lt t.flags = true ↔ (s.reg ra).toInt < (s.reg rb).toInt) ∧
    (condHolds .gt t.flags = true ↔ (s.reg rb).toInt < (s.reg ra).toInt) ∧
    (condHolds .le t.flags = true ↔ (s.reg ra).toInt ≤ (s.reg rb).toInt)

/-- R152: BR branches to a register plus an offset, absolute. The spec's own D13 (log entry 14). -/
def Obligations.RegisterBranchIsAbsolute : Prop :=
  RowDecodes 0xC4000000 0xDE000000 (fun w => .br (rdField w) (offField w)) ∧
  ∀ (rd : Reg) (off : Int) (s : State),
    ∃ t, exec (.br rd off) s = .next t ∧ (t.pc.toNat : Int) = ((s.reg rd).toNat + off) % 2 ^ 32 ∧ BranchFrame s t

/-- R153: NOP only advances the pc. -/
def Obligations.NopOnlyAdvances : Prop :=
  RowDecodes 0xC8000000 0xD8000000 (fun _ => .nop) ∧
  ∀ (s : State), ∃ t, exec .nop s = .next t ∧ t.pc = s.pc + config.istep ∧ BranchFrame s t

/-- R154: HALT sets HALTED and advances the pc; after it the machine has no further step. The spec's own D22 (log entries 7,
23). -/
def Obligations.HaltStopsTheCpu : Prop :=
  RowDecodes 0xD0000000 0xD0000000 (fun _ => .halt) ∧
  ∀ (s : State), ∃ t, exec .halt s = .next t ∧ t.halted = true ∧ t.pc = s.pc + config.istep ∧ SameRegs s t ∧ t.flags = s.flags ∧
    t.memDomain = s.memDomain ∧ SameMemory s t ∧ t.final ∧ ∀ u, step t ≠ .next u

/-! ### Rules of the whole machine -/

/-- R31, R176: a halted CPU has no step; of the 34 instructions only HALT sets HALTED and none clears it. The spec's own D22
(log entries 7, 23). -/
def Obligations.OnlyHaltSetsHalted : Prop :=
  (∀ s : State, s.halted = true → step s = .fault .cpuStopped) ∧
  (∀ (i : Instr) (s t : State), exec i s = .next t → (t.halted = true ↔ (s.halted = true ∨ i = .halt)))

/-- R25: how each instruction advances the pc. The spec's own D5, D11, D12, D13 (log entries 10, 12, 14). -/
def Obligations.PcAdvance : Prop :=
  ∀ (i : Instr) (s t : State), exec i s = .next t →
    (∀ off, i = .b off → (t.pc.toNat : Int) = (s.pc.toNat + off) % 2 ^ 32) ∧
    (∀ c off, i = .bCond c off → condHolds c s.flags = true → (t.pc.toNat : Int) = (s.pc.toNat + off) % 2 ^ 32) ∧
    (∀ c off, i = .bCond c off → condHolds c s.flags = false → t.pc.toNat = (s.pc.toNat + 1) % 2 ^ 32) ∧
    (∀ rd off, i = .br rd off → (t.pc.toNat : Int) = ((s.reg rd).toNat + off) % 2 ^ 32) ∧
    ((∀ off, i ≠ .b off) → (∀ c off, i ≠ .bCond c off) → (∀ rd off, i ≠ .br rd off) →
      t.pc.toNat = (s.pc.toNat + 1) % 2 ^ 32)

/-- R23: an instruction writes no register but its destination, and it does not see a register outside its table row. Derived by
the spec from its rules; CMP's row is its D20 (log entry 18). -/
def Obligations.RegisterReadWriteTable : Prop :=
  (∀ (i : Instr) (s t : State), exec i s = .next t → ∀ r, i.dest ≠ some r → t.reg r = s.reg r) ∧
  (∀ (i : Instr) (s : State) (r : Reg) (v : Word), r ∉ i.sources →
    (∀ t, exec i s = .next t → exec i (s.setReg r v) = .next (if i.dest = some r then t else t.setReg r v)) ∧
    (∀ f, exec i s = .fault f → exec i (s.setReg r v) = .fault f))

/-- R28: ten instructions write the flags, all four whatever they were; no other writes one; only B.cond reads them. All four at
once is the spec's own D16 (log entry 13). -/
def Obligations.FlagsWrittenByTenReadByOne : Prop :=
  (∀ (i : Instr) (s t : State), exec i s = .next t → i.setsFlags = false → t.flags = s.flags) ∧
  (∀ (i : Instr) (s : State) (f : Flags), (∀ c off, i ≠ .bCond c off) →
    (∀ t, exec i s = .next t → exec i (s.setFlags f) = .next (if i.setsFlags then t else t.setFlags f)) ∧
    (∀ e, exec i s = .fault e → exec i (s.setFlags f) = .fault e))

/-- R10's two forms: a sum, and a difference computed as a + NOT b + 1. From general knowledge in the spec, its D17 (log entry
13). -/
def Obligations.AddWithCarryAddsAndSubtracts : Prop :=
  ∀ a b : Word,
    (addWithCarry a b false).1 = a + b ∧
    ((addWithCarry a b false).2.c = true ↔ 2 ^ 32 ≤ a.toNat + b.toNat) ∧
    ((addWithCarry a b false).2.v = true ↔ (a + b).toInt ≠ a.toInt + b.toInt) ∧
    (addWithCarry a (~~~b) true).1 = a - b ∧
    ((addWithCarry a (~~~b) true).2.n = true ↔ (a - b).toInt < 0) ∧
    ((addWithCarry a (~~~b) true).2.z = true ↔ a = b) ∧
    ((addWithCarry a (~~~b) true).2.c = true ↔ b.toNat ≤ a.toNat) ∧
    ((addWithCarry a (~~~b) true).2.v = true ↔ (a - b).toInt ≠ a.toInt - b.toInt)

/-- R41: effective addresses and branch targets are computed modulo 2^32 (the spec's own D6, log entry 25). That B's base is its own
address is its D12 (log entry 12), that BR is absolute its D13 (log entry 14), and that the next pc is 1 away its D5, D11 (log
entry 10). -/
def Obligations.AddressesWrap : Prop :=
  ∀ (s : State) (r : Reg) (off : Int),
    ((s.offsetAddress r off).toNat : Int) = ((s.reg r).toNat + off) % 2 ^ 32 ∧
    ((s.branchTarget off).toNat : Int) = (s.pc.toNat + off) % 2 ^ 32 ∧
    ((s.registerTarget r off).toNat : Int) = ((s.reg r).toNat + off) % 2 ^ 32 ∧
    (s.advance.pc.toNat : Int) = (s.pc.toNat + 1) % 2 ^ 32

/-- R43, R44, R40: a cell reads as the value last written to it; a write changes no other cell and no other state. The spec's
own D5, D10 (log entries 4, 10, 25). -/
def Obligations.CellsAreIndependent : Prop :=
  ∀ (s : State) (a v : Word),
    (s.implements a = true → ∃ t, s.memWrite a v = .ok t ∧ (∀ k, t.memRead k a = .ok v) ∧
      (∀ b, b ≠ a → ∀ k, t.memRead k b = s.memRead k b) ∧ SameMemoryOutside a s t ∧
      SameRegs s t ∧ t.pc = s.pc ∧ t.flags = s.flags ∧ t.halted = s.halted ∧ t.memDomain = s.memDomain) ∧
    (s.implements a = false → s.memWrite a v = .error (.memoryFault a .store s.pc) ∧
      ∀ k, s.memRead k a = .error (.memoryFault a k s.pc))

/-- R54: what a STOR wrote is what a fetch from that address sees, the very next one included. The spec's own D7 (log entry 21). -/
def Obligations.StoreIsFetchedAtOnce : Prop :=
  ∀ (rd rp : Reg) (off : Int) (s t : State) (i : Instr), exec (.stor rd rp off) s = .next t →
    (∀ pc, pc = s.offsetAddress rp off → (t.setPc pc).fetchWord = .ok (s.reg rd)) ∧
    (s.offsetAddress rp off = s.pc + config.istep → s.halted = false → decode (s.reg rd) = .ok i → step t = exec i t)

/-- R174: where `MemoryFault` is raised, by a step and by an instruction, with what information, and that nothing else raises it.
The spec's own D10 (log entries 4, 25). -/
def Obligations.MemoryFaultExactly : Prop :=
  (∀ s : State, s.halted = false → s.implements s.pc = false → step s = .fault (.memoryFault s.pc .fetch s.pc)) ∧
  (∀ (i : Instr) (s : State) (a : Word) (k : Access) (p : Word), exec i s = .fault (.memoryFault a k p) →
    s.implements a = false ∧ p = s.pc ∧ i.Accesses s k a) ∧
  (∀ (rd rp : Reg) (off : Int) (s : State), s.implements (s.offsetAddress rp off) = false →
    exec (.load rd rp off) s = .fault (.memoryFault (s.offsetAddress rp off) .load s.pc) ∧
    exec (.stor rd rp off) s = .fault (.memoryFault (s.offsetAddress rp off) .store s.pc)) ∧
  (∀ (s : State) (a : Word) (k : Access) (p : Word), step s = .fault (.memoryFault a k p) →
    s.halted = false ∧ s.implements a = false ∧ p = s.pc ∧
      ((k = .fetch ∧ a = s.pc) ∨
       (∃ w i, s.implements s.pc = true ∧ s.mem.readCell s.pc = some w ∧ decode w = .ok i ∧ i.Accesses s k a)))

/-- R173: `UndefinedInstruction(w)` is raised at decode, exactly for a fetched word that matches no row. The spec's own D4 (log
entry 24). -/
def Obligations.UndefinedInstructionExactly : Prop :=
  (∀ (s : State) (w p : Word), step s = .fault (.undefinedInstruction w p) ↔
    (s.halted = false ∧ s.implements s.pc = true ∧ s.mem.readCell s.pc = some w ∧ p = s.pc ∧
      ∀ i : Instr, i.row.matches w = false)) ∧
  (∀ (i : Instr) (s : State) (w p : Word), exec i s ≠ .fault (.undefinedInstruction w p))

/-- R171: only LOAD and STOR can fail; every other instruction completes from every state, and none is refused. The spec's own D24
(log entries 22, 25); that no read of a register or flag fails is the model's choice where R175, R178 (3) and D24 name
`UninitialisedRead`: each holds a value at reset (log entries 1, 2). -/
def Obligations.OnlyMemoryAccessesCanFail : Prop :=
  (∀ (i : Instr) (s : State), (∀ rd rp off, i ≠ .load rd rp off) → (∀ rd rp off, i ≠ .stor rd rp off) →
    ∃ t, exec i s = .next t) ∧
  (∀ (i : Instr) (s : State) (r : Refusal), exec i s ≠ .refused r)

/-- The model's treatment of an unwritten cell (R175, its fault reading; log entry 3): a fetch or LOAD of one stops, and nothing
else, instruction or step, stops so. -/
def Obligations.UnwrittenCellsStopReads : Prop :=
  (∀ s : State, s.halted = false → s.implements s.pc = true → s.mem.readCell s.pc = none →
    step s = .fault (.uninitialisedRead s.pc .fetch s.pc)) ∧
  (∀ (rd rp : Reg) (off : Int) (s : State), s.implements (s.offsetAddress rp off) = true →
    s.mem.readCell (s.offsetAddress rp off) = none →
    exec (.load rd rp off) s = .fault (.uninitialisedRead (s.offsetAddress rp off) .load s.pc)) ∧
  (∀ (i : Instr) (s : State) (a : Word) (k : Access) (p : Word), exec i s = .fault (.uninitialisedRead a k p) →
    s.implements a = true ∧ s.mem.readCell a = none ∧ p = s.pc ∧ k = .load ∧ i.Accesses s k a) ∧
  (∀ (s : State) (a : Word) (k : Access) (p : Word), step s = .fault (.uninitialisedRead a k p) →
    s.halted = false ∧ s.implements a = true ∧ s.mem.readCell a = none ∧ p = s.pc ∧
      ((k = .fetch ∧ a = s.pc) ∨
       (k = .load ∧ ∃ w i, s.implements s.pc = true ∧ s.mem.readCell s.pc = some w ∧ decode w = .ok i ∧
         i.Accesses s k a)))

/-- Every step keeps the invariant: canonical memory, nothing stored outside MEM_DOMAIN, no half-written cell. The form of
memory is the model's (log entry 5). -/
def Obligations.StepKeepsInv : Prop :=
  ∀ s t : State, s.Inv → step s = .next t → t.Inv

/-- The invariant holds right after reset. The form of memory is the model's (log entry 5). -/
def Obligations.ResetMeetsInv : Prop := State.reset.Inv

/-- The host's writes and the reset event keep the invariant, a write where MEM_DOMAIN holds the address. The host's part is the
spec's own D29 (log entries 4, 5, 8, 9). -/
def Obligations.HostKeepsInv : Prop :=
  (∀ (s : State) (a v : Word), s.Inv → s.implements a = true → (s.hostWrite a v).Inv) ∧
  (∀ s : State, s.Inv → s.applyReset.Inv) ∧
  (∀ (s : State) (w : Word), s.Inv → (s.placeAtPc w).Inv)

/-- R47: no step changes MEM_DOMAIN, and every store lands inside it. MEM_DOMAIN as state is the model's (log entry 4). -/
def Obligations.StepKeepsMemDomain : Prop :=
  ∀ s t : State, step s = .next t → t.memDomain = s.memDomain ∧
    ∀ a, s.implements a = false → t.mem.readCell a = s.mem.readCell a

/-- R190: what the reset event sets, that it leaves memory alone, and that the first step fetches at RESET_PC. The spec's own
D25 (log entries 9, 11). -/
def Obligations.ResetEvent : Prop :=
  State.reset.pc = 0x00000000 ∧ State.reset.halted = false ∧
  ∀ s : State, s.applyReset.pc = 0x00000000 ∧ s.applyReset.halted = false ∧ s.applyReset.mem = s.mem ∧
    s.applyReset.memDomain = s.memDomain ∧ s.applyReset.fetchWord = s.applyReset.memRead .fetch 0x00000000

/-- R191: an image of at most 2^32 words stands in consecutive cells, one word each, and changes no other cell. The spec's own
D25, D29 (log entry 8). -/
def Obligations.HostLoadPlacesImage : Prop :=
  ∀ (ws : List Word) (s : State) (a : Word), ws.length ≤ 2 ^ 32 →
    (∀ (j : Nat) (w : Word), ws[j]? = some w → (s.hostLoad a ws).mem.readCell (a + BitVec.ofNat 32 j) = some w) ∧
    (∀ b : Word, (∀ j, j < ws.length → b ≠ a + BitVec.ofNat 32 j) →
      (s.hostLoad a ws).mem.readCell b = s.mem.readCell b)

/-- The host's `withFetchWord` (log entry 8): the very next step runs the placed instruction, in every state. -/
def Obligations.PlacedInstructionRuns : Prop :=
  ∀ (s : State) (nbits w : Nat) (i : Instr), decodeTableWord nbits w = some i →
    step (s.withFetchWord nbits w) = exec i (s.withFetchWord nbits w) ∧ (s.withFetchWord nbits w).pc = s.pc
end

