-- ==== Sys2Proof/Laws/Decode.lean ====
section
/-! SUPPORT. What the decoder sees of a word laid out by the encoder, and of a word that matches a row's mask. -/

namespace Sys2Proof

/-- The decided reading of `x` bits: the decoder is the procedure of R76 (R62, D3). -/
theorem decode_eq (w : Word) : decode w = decodeFixed w := by
  unfold decode
  cases decodeFixed w <;> rfl

/-! ### The fields of a laid-out word -/

/-- A laid-out word as a number. -/
theorem layout_toNat (op : BitVec 7) (d a b : BitVec 3) (low : BitVec 16) :
    (layout op d a b low).toNat =
      op.toNat * 2 ^ 25 + d.toNat * 2 ^ 22 + a.toNat * 2 ^ 19 + b.toNat * 2 ^ 16 + low.toNat := by
  have hd := d.isLt
  have ha := a.isLt
  have hb := b.isLt
  have hl := low.isLt
  simp only [layout, BitVec.toNat_append]
  rw [← Nat.shiftLeft_add_eq_or_of_lt hd, ← Nat.shiftLeft_add_eq_or_of_lt ha, ← Nat.shiftLeft_add_eq_or_of_lt hb,
    ← Nat.shiftLeft_add_eq_or_of_lt hl]
  simp only [Nat.shiftLeft_eq]
  omega

/-- The five parts a word was laid out from are found again, each in its place (R63). -/
theorem layout_parts (op : BitVec 7) (d a b : BitVec 3) (low : BitVec 16) :
    (layout op d a b low).extractLsb' 25 7 = op ∧ (layout op d a b low).extractLsb' 22 3 = d ∧
    (layout op d a b low).extractLsb' 19 3 = a ∧ (layout op d a b low).extractLsb' 16 3 = b ∧
    (layout op d a b low).extractLsb' 0 16 = low := by
  have ho := op.isLt
  have hd := d.isLt
  have ha := a.isLt
  have hb := b.isLt
  have hl := low.isLt
  refine ⟨?_, ?_, ?_, ?_, ?_⟩ <;>
    (apply BitVec.eq_of_toNat_eq
     rw [BitVec.extractLsb'_toNat, layout_toNat, Nat.shiftRight_eq_div_pow]
     omega)

theorem layout_extract_opcode (op : BitVec 7) (d a b : BitVec 3) (low : BitVec 16) :
    (layout op d a b low).extractLsb' 25 7 = op := (layout_parts op d a b low).1

theorem layout_extract_rd (op : BitVec 7) (d a b : BitVec 3) (low : BitVec 16) :
    (layout op d a b low).extractLsb' 22 3 = d := (layout_parts op d a b low).2.1

theorem layout_extract_ra (op : BitVec 7) (d a b : BitVec 3) (low : BitVec 16) :
    (layout op d a b low).extractLsb' 19 3 = a := (layout_parts op d a b low).2.2.1

theorem layout_extract_rb (op : BitVec 7) (d a b : BitVec 3) (low : BitVec 16) :
    (layout op d a b low).extractLsb' 16 3 = b := (layout_parts op d a b low).2.2.2.1

theorem layout_extract_low (op : BitVec 7) (d a b : BitVec 3) (low : BitVec 16) :
    (layout op d a b low).extractLsb' 0 16 = low := (layout_parts op d a b low).2.2.2.2

/-- Bits 25 to 31 of a word are the bits of its opcode part. -/
theorem getElem_opcode (w : Word) (k : Nat) (hk : k < 32) (h : 25 ≤ k) :
    w[k] = (w.extractLsb' 25 7).getLsbD (k - 25) := by
  rw [BitVec.getLsbD_extractLsb', decide_eq_true (by omega), Bool.true_and, ← BitVec.getLsbD_eq_getElem]
  congr 1
  omega

/-- Bits [31:25] of a laid-out word are the bits of its first part. -/
theorem layout_opcode_bit (op : BitVec 7) (d a b : BitVec 3) (low : BitVec 16) (k : Nat) (hk : k < 32) (h : 25 ≤ k) :
    (layout op d a b low)[k] = op.getLsbD (k - 25) := by
  rw [getElem_opcode _ k hk h, layout_extract_opcode]

/-- The condition field lies across the rd field and the top bit of the ra field (R65, format `BCI`). -/
theorem layout_extract_cond (op : BitVec 7) (c : BitVec 4) (b : BitVec 3) (low : BitVec 16) :
    (layout op (c.extractLsb' 1 3) (c.extractLsb' 0 1 ++ 0#2) b low).extractLsb' 21 4 = c := by
  have ho := op.isLt
  have hb := b.isLt
  have hl := low.isLt
  have hc := c.isLt
  have ht : (c.extractLsb' 0 1 ++ 0#2).toNat = c.toNat % 2 * 4 := by
    rw [BitVec.toNat_append, BitVec.extractLsb'_toNat, Nat.shiftLeft_eq]
    simp
  apply BitVec.eq_of_toNat_eq
  rw [BitVec.extractLsb'_toNat, layout_toNat, ht, BitVec.extractLsb'_toNat, Nat.shiftRight_eq_div_pow,
    Nat.shiftRight_eq_div_pow]
  omega

theorem rdField_layout (op : BitVec 7) (r : Reg) (a b : BitVec 3) (low : BitVec 16) :
    rdField (layout op (regBits r) a b low) = r := by
  rw [rdField, layout_extract_rd]
  revert r; decide

theorem raField_layout (op : BitVec 7) (d : BitVec 3) (r : Reg) (b : BitVec 3) (low : BitVec 16) :
    raField (layout op d (regBits r) b low) = r := by
  rw [raField, layout_extract_ra]
  revert r; decide

theorem rbField_layout (op : BitVec 7) (d a : BitVec 3) (r : Reg) (low : BitVec 16) :
    rbField (layout op d a (regBits r) low) = r := by
  rw [rbField, layout_extract_rb]
  revert r; decide

theorem immField_layout (op : BitVec 7) (d a b : BitVec 3) (imm : Nat) (h : immOk imm = true) :
    immField (layout op d a b (immBits imm)) = imm := by
  simp only [immOk, decide_eq_true_eq] at h
  rw [immField, layout_extract_low, immBits, BitVec.toNat_ofNat]
  omega

theorem offField_layout (op : BitVec 7) (d a b : BitVec 3) (off : Int) (h : offOk off = true) :
    offField (layout op d a b (offBits off)) = off := by
  simp only [offOk, Bool.and_eq_true, decide_eq_true_eq] at h
  rw [offField, layout_extract_low, offBits, BitVec.toInt_ofInt, Int.bmod_def]
  omega

theorem Cond.ofCode_code (c : Cond) : Cond.ofCode c.code = c := by
  cases c <;> rfl

theorem condField_layout (op : BitVec 7) (c : Cond) (b : BitVec 3) (low : BitVec 16) :
    condField (layout op (c.code.extractLsb' 1 3) (c.code.extractLsb' 0 1 ++ 0#2) b low) = c := by
  rw [condField, layout_extract_cond, Cond.ofCode_code]

/-! ### The fields of any word are in range -/

theorem immField_ok (w : Word) : immOk (immField w) = true := by
  have h := (w.extractLsb' 0 16).isLt
  exact decide_eq_true (show (w.extractLsb' 0 16).toNat ≤ 65535 by omega)

theorem offField_ok (w : Word) : offOk (offField w) = true := by
  have h1 : -32768 ≤ offField w := BitVec.le_toInt (w.extractLsb' 0 16)
  have h2 : offField w < 32768 := BitVec.toInt_lt (x := w.extractLsb' 0 16)
  rw [offOk, decide_eq_true h1, decide_eq_true (show offField w ≤ 32767 by omega)]
  rfl

/-! ### Words that match a row -/

/-- A bit that a mask fixes has the row's value. -/
theorem bit_of_masked {w mask value : Word} (h : w &&& mask = value) (k : Nat) (hk : k < 32) (hm : mask[k] = true) :
    w[k] = value[k] := by
  subst h
  rw [BitVec.getElem_and, hm, Bool.and_true]

/-- A mask over bits [31:25] of a laid-out word looks at its first part only. -/
theorem layout_and_mask (op m : BitVec 7) (d a b : BitVec 3) (low : BitVec 16) :
    layout op d a b low &&& layout m 0 0 0 0 = layout (op &&& m) 0 0 0 0 := by
  apply BitVec.eq_of_getLsbD_eq
  intro i _
  simp only [layout, BitVec.getLsbD_and, BitVec.getLsbD_append]
  split_ifs <;> simp

/-! ### The opcode bits [31:25] decide the row (R75, R76) -/

/-- A word is laid out from its own parts. -/
theorem layout_eta (w : Word) :
    layout (w.extractLsb' 25 7) (w.extractLsb' 22 3) (w.extractLsb' 19 3) (w.extractLsb' 16 3) (w.extractLsb' 0 16) = w := by
  apply BitVec.eq_of_getLsbD_eq
  intro i hi
  simp only [layout, BitVec.getLsbD_append, BitVec.getLsbD_extractLsb']
  split_ifs
  all_goals (rw [decide_eq_true (by omega), Bool.true_and]; congr 1; omega)

/-- A mask over bits [31:25] tests the opcode part only. -/
theorem masked_iff (w : Word) (m v : BitVec 7) :
    w &&& layout m 0 0 0 0 = layout v 0 0 0 0 ↔ w.extractLsb' 25 7 &&& m = v := by
  have hw : w &&& layout m 0 0 0 0 = layout (w.extractLsb' 25 7 &&& m) 0 0 0 0 := by
    conv_lhs => rw [← layout_eta w, layout_and_mask]
  rw [hw]
  refine ⟨fun h => ?_, fun h => by rw [h]⟩
  have he := congrArg (fun x : Word => x.extractLsb' 25 7) h
  simpa only [layout_extract_opcode] using he

/-- A row of R75 matches on the seven opcode bits alone, a question `decide` can settle. -/
theorem row_matches_iff (i : Instr) (w : Word) : i.row.matches w = true ↔
    w.extractLsb' 25 7 &&& i.row.mask.extractLsb' 25 7 = i.row.value.extractLsb' 25 7 := by
  have h : layout (i.row.mask.extractLsb' 25 7) 0 0 0 0 = i.row.mask ∧
      layout (i.row.value.extractLsb' 25 7) 0 0 0 0 = i.row.value := by
    cases i <;> simp only [Instr.row] <;> decide
  rw [← masked_iff, h.1, h.2, OpcodeRow.matches, beq_iff_eq]

end Sys2Proof
end

