-- ==== Sys2Proof/Laws/State.lean ====
section
/-! SUPPORT. One lemma per field per update of the state, and the laws of register reads and writes. -/

namespace Sys2Proof.Machine

@[simp] theorem config_istep : config.istep = 1 := rfl

/-- The widths that Config records are those of the types (R6, R20, R21, R41, R60). -/
theorem config_widths :
    Word = BitVec config.ilen ∧ Reg = Fin config.nreg ∧ Word = BitVec config.xlen ∧ Word = BitVec config.alen :=
  ⟨rfl, rfl, rfl, rfl⟩

/-- IMEM_SHARED is true, and the one memory of State is what a load and the fetch of an address read (R42): what they return does
not depend on the kind of access. -/
theorem config_one_memory :
    config.imemShared = true ∧
      ∀ (s : State) (j k : Access) (a v : Word), s.memRead j a = .ok v → s.memRead k a = .ok v := by
  refine ⟨rfl, fun s j k a v h => ?_⟩
  unfold State.memRead at h ⊢
  cases hi : s.implements a
  · simp [hi] at h
  · cases hr : s.mem.readCell a <;> simp [hi, hr] at h ⊢
    exact h

/-- The decided reading of an unwritten byte: no value (log entry 3). -/
theorem unwrittenByte_eq : unwrittenByte = none := rfl

@[simp] theorem State.setReg_pc (s : State) (i : Reg) (v : Word) : (s.setReg i v).pc = s.pc := rfl
@[simp] theorem State.setReg_flags (s : State) (i : Reg) (v : Word) : (s.setReg i v).flags = s.flags := rfl
@[simp] theorem State.setReg_halted (s : State) (i : Reg) (v : Word) : (s.setReg i v).halted = s.halted := rfl
@[simp] theorem State.setReg_memDomain (s : State) (i : Reg) (v : Word) : (s.setReg i v).memDomain = s.memDomain := rfl
@[simp] theorem State.setReg_mem (s : State) (i : Reg) (v : Word) : (s.setReg i v).mem = s.mem := rfl
@[simp] theorem State.setReg_implements (s : State) (i : Reg) (v : Word) (a : Word) : (s.setReg i v).implements a = s.implements a := rfl

@[simp] theorem State.setFlags_pc (s : State) (f : Flags) : (s.setFlags f).pc = s.pc := rfl
@[simp] theorem State.setFlags_flags (s : State) (f : Flags) : (s.setFlags f).flags = f := rfl
@[simp] theorem State.setFlags_halted (s : State) (f : Flags) : (s.setFlags f).halted = s.halted := rfl
@[simp] theorem State.setFlags_memDomain (s : State) (f : Flags) : (s.setFlags f).memDomain = s.memDomain := rfl
@[simp] theorem State.setFlags_mem (s : State) (f : Flags) : (s.setFlags f).mem = s.mem := rfl
@[simp] theorem State.setFlags_implements (s : State) (f : Flags) (a : Word) : (s.setFlags f).implements a = s.implements a := rfl
@[simp] theorem State.setFlags_regs (s : State) (f : Flags) : (s.setFlags f).regs = s.regs := rfl
@[simp] theorem State.setFlags_reg (s : State) (f : Flags) (r : Reg) : (s.setFlags f).reg r = s.reg r := rfl

@[simp] theorem State.setPc_pc (s : State) (t : Word) : (s.setPc t).pc = t := rfl
@[simp] theorem State.setPc_flags (s : State) (t : Word) : (s.setPc t).flags = s.flags := rfl
@[simp] theorem State.setPc_halted (s : State) (t : Word) : (s.setPc t).halted = s.halted := rfl
@[simp] theorem State.setPc_memDomain (s : State) (t : Word) : (s.setPc t).memDomain = s.memDomain := rfl
@[simp] theorem State.setPc_mem (s : State) (t : Word) : (s.setPc t).mem = s.mem := rfl
@[simp] theorem State.setPc_implements (s : State) (t : Word) (a : Word) : (s.setPc t).implements a = s.implements a := rfl
@[simp] theorem State.setPc_regs (s : State) (t : Word) : (s.setPc t).regs = s.regs := rfl
@[simp] theorem State.setPc_reg (s : State) (t : Word) (r : Reg) : (s.setPc t).reg r = s.reg r := rfl

@[simp] theorem State.advance_pc (s : State) : s.advance.pc = s.pc + 1 := rfl
@[simp] theorem State.advance_flags (s : State) : s.advance.flags = s.flags := rfl
@[simp] theorem State.advance_halted (s : State) : s.advance.halted = s.halted := rfl
@[simp] theorem State.advance_memDomain (s : State) : s.advance.memDomain = s.memDomain := rfl
@[simp] theorem State.advance_mem (s : State) : s.advance.mem = s.mem := rfl
@[simp] theorem State.advance_implements (s : State) (a : Word) : s.advance.implements a = s.implements a := rfl
@[simp] theorem State.advance_regs (s : State) : s.advance.regs = s.regs := rfl
@[simp] theorem State.advance_reg (s : State) (r : Reg) : s.advance.reg r = s.reg r := rfl

@[simp] theorem State.setHalted_pc (s : State) (b : Bool) : (s.setHalted b).pc = s.pc := rfl
@[simp] theorem State.setHalted_flags (s : State) (b : Bool) : (s.setHalted b).flags = s.flags := rfl
@[simp] theorem State.setHalted_halted (s : State) (b : Bool) : (s.setHalted b).halted = b := rfl
@[simp] theorem State.setHalted_memDomain (s : State) (b : Bool) : (s.setHalted b).memDomain = s.memDomain := rfl
@[simp] theorem State.setHalted_mem (s : State) (b : Bool) : (s.setHalted b).mem = s.mem := rfl
@[simp] theorem State.setHalted_implements (s : State) (b : Bool) (a : Word) : (s.setHalted b).implements a = s.implements a := rfl
@[simp] theorem State.setHalted_regs (s : State) (b : Bool) : (s.setHalted b).regs = s.regs := rfl
@[simp] theorem State.setHalted_reg (s : State) (b : Bool) (r : Reg) : (s.setHalted b).reg r = s.reg r := rfl

@[simp] theorem State.setMem_pc (s : State) (m : Memory) : (s.setMem m).pc = s.pc := rfl
@[simp] theorem State.setMem_flags (s : State) (m : Memory) : (s.setMem m).flags = s.flags := rfl
@[simp] theorem State.setMem_halted (s : State) (m : Memory) : (s.setMem m).halted = s.halted := rfl
@[simp] theorem State.setMem_memDomain (s : State) (m : Memory) : (s.setMem m).memDomain = s.memDomain := rfl
@[simp] theorem State.setMem_mem (s : State) (m : Memory) : (s.setMem m).mem = m := rfl
@[simp] theorem State.setMem_implements (s : State) (m : Memory) (a : Word) : (s.setMem m).implements a = s.implements a := rfl
@[simp] theorem State.setMem_regs (s : State) (m : Memory) : (s.setMem m).regs = s.regs := rfl
@[simp] theorem State.setMem_reg (s : State) (m : Memory) (r : Reg) : (s.setMem m).reg r = s.reg r := rfl

@[simp] theorem State.finish_pc (s : State) (i : Reg) (v : Word) : (s.finish i v).pc = s.pc + 1 := rfl
@[simp] theorem State.finish_flags (s : State) (i : Reg) (v : Word) : (s.finish i v).flags = s.flags := rfl
@[simp] theorem State.finish_halted (s : State) (i : Reg) (v : Word) : (s.finish i v).halted = s.halted := rfl
@[simp] theorem State.finish_memDomain (s : State) (i : Reg) (v : Word) : (s.finish i v).memDomain = s.memDomain := rfl
@[simp] theorem State.finish_mem (s : State) (i : Reg) (v : Word) : (s.finish i v).mem = s.mem := rfl
@[simp] theorem State.finish_implements (s : State) (i : Reg) (v : Word) (a : Word) : (s.finish i v).implements a = s.implements a := rfl

@[simp] theorem State.finishFlags_pc (s : State) (i : Reg) (v : Word) (f : Flags) : (s.finishFlags i v f).pc = s.pc + 1 := rfl
@[simp] theorem State.finishFlags_flags (s : State) (i : Reg) (v : Word) (f : Flags) : (s.finishFlags i v f).flags = f := rfl
@[simp] theorem State.finishFlags_halted (s : State) (i : Reg) (v : Word) (f : Flags) : (s.finishFlags i v f).halted = s.halted := rfl
@[simp] theorem State.finishFlags_memDomain (s : State) (i : Reg) (v : Word) (f : Flags) : (s.finishFlags i v f).memDomain = s.memDomain := rfl
@[simp] theorem State.finishFlags_mem (s : State) (i : Reg) (v : Word) (f : Flags) : (s.finishFlags i v f).mem = s.mem := rfl
@[simp] theorem State.finishFlags_implements (s : State) (i : Reg) (v : Word) (f : Flags) (a : Word) : (s.finishFlags i v f).implements a = s.implements a := rfl

theorem State.setReg_reg (s : State) (i : Reg) (v : Word) (r : Reg) :
    (s.setReg i v).reg r = if r = i then v else s.reg r := by
  by_cases h : r = i
  · subst h; simp [State.setReg, State.reg]
  · have hv : i.val ≠ r.val := fun e => h (Fin.ext e.symm)
    simp [State.setReg, State.reg, h, hv]

@[simp] theorem State.setReg_reg_same (s : State) (i : Reg) (v : Word) : (s.setReg i v).reg i = v := by
  simp [State.setReg_reg]

@[simp] theorem State.setReg_reg_ne (s : State) (i : Reg) (v : Word) (r : Reg) (h : r ≠ i) :
    (s.setReg i v).reg r = s.reg r := by
  simp [State.setReg_reg, h]

theorem State.finish_reg (s : State) (i : Reg) (v : Word) (r : Reg) :
    (s.finish i v).reg r = if r = i then v else s.reg r := by
  simp [State.finish, State.setReg_reg]

@[simp] theorem State.finish_reg_same (s : State) (i : Reg) (v : Word) : (s.finish i v).reg i = v := by
  simp [State.finish_reg]

@[simp] theorem State.finish_reg_ne (s : State) (i : Reg) (v : Word) (r : Reg) (h : r ≠ i) :
    (s.finish i v).reg r = s.reg r := by
  simp [State.finish_reg, h]

theorem State.finishFlags_reg (s : State) (i : Reg) (v : Word) (f : Flags) (r : Reg) :
    (s.finishFlags i v f).reg r = if r = i then v else s.reg r := by
  simp [State.finishFlags, State.setReg_reg]

@[simp] theorem State.finishFlags_reg_same (s : State) (i : Reg) (v : Word) (f : Flags) :
    (s.finishFlags i v f).reg i = v := by
  simp [State.finishFlags_reg]

@[simp] theorem State.finishFlags_reg_ne (s : State) (i : Reg) (v : Word) (f : Flags) (r : Reg) (h : r ≠ i) :
    (s.finishFlags i v f).reg r = s.reg r := by
  simp [State.finishFlags_reg, h]

/-- The flag-setting end of an instruction is the plain end with the flags written (R113). -/
theorem State.finishFlags_eq (s : State) (i : Reg) (v : Word) (f : Flags) :
    s.finishFlags i v f = (s.finish i v).setFlags f := rfl

/-- Two writes of one register leave the second. -/
@[simp] theorem State.setReg_setReg_same (s : State) (i : Reg) (u v : Word) :
    (s.setReg i u).setReg i v = s.setReg i v := by
  simp [State.setReg]

/-- Writes of two registers commute. -/
theorem State.setReg_setReg_comm (s : State) (i j : Reg) (u v : Word) (h : i ≠ j) :
    (s.setReg i u).setReg j v = (s.setReg j v).setReg i u := by
  have hv : i.val ≠ j.val := fun e => h (Fin.ext e)
  simp only [State.setReg]
  congr 1
  exact Vector.set_comm u v hv

/-- Writing a register before an instruction that writes `rd`: lost where it is `rd`, else kept. -/
theorem State.setReg_finish (s : State) (rd r : Reg) (u v : Word) :
    (s.setReg r v).finish rd u = if rd = r then s.finish rd u else (s.finish rd u).setReg r v := by
  by_cases h : rd = r
  · subst h; simp [State.finish]
  · rw [if_neg h]
    show ((s.setReg r v).setReg rd u).advance = ((s.setReg rd u).setReg r v).advance
    rw [State.setReg_setReg_comm _ _ _ _ _ (Ne.symm h)]

theorem State.setReg_finishFlags (s : State) (rd r : Reg) (u v : Word) (f : Flags) :
    (s.setReg r v).finishFlags rd u f =
      if rd = r then s.finishFlags rd u f else (s.finishFlags rd u f).setReg r v := by
  rw [State.finishFlags_eq, State.setReg_finish, State.finishFlags_eq]
  split <;> rfl

/-- What an instruction that only writes `rd` leaves as it was. -/
theorem State.finish_frame (s : State) (rd : Reg) (v : Word) :
    (∀ r, r ≠ rd → (s.finish rd v).reg r = s.reg r) ∧ (s.finish rd v).mem = s.mem ∧
      (s.finish rd v).memDomain = s.memDomain ∧ (s.finish rd v).halted = s.halted ∧
      (s.finish rd v).flags = s.flags := by
  refine ⟨fun r h => by simp [h], rfl, rfl, rfl, rfl⟩

/-- What an instruction that writes `rd` and the flags leaves as it was. -/
theorem State.finishFlags_frame (s : State) (rd : Reg) (v : Word) (f : Flags) :
    (∀ r, r ≠ rd → (s.finishFlags rd v f).reg r = s.reg r) ∧ (s.finishFlags rd v f).mem = s.mem ∧
      (s.finishFlags rd v f).memDomain = s.memDomain ∧ (s.finishFlags rd v f).halted = s.halted := by
  refine ⟨fun r h => by simp [h], rfl, rfl, rfl⟩

end Sys2Proof.Machine
end

