-- ==== Sys2Proof/Laws/Flags.lean ====
section
/-! SUPPORT. The operand forms and flag computations under the decided parameters, as arithmetic on the values. -/

namespace Sys2Proof.Machine

/-- A 32-bit value from an unsigned literal. -/
theorem zext32_toNat (imm : Nat) (h : imm ≤ 65535) : (zext32 imm).toNat = imm := by
  simp only [zext32, BitVec.toNat_ofNat]; omega

theorem zext32_toInt (imm : Nat) (h : imm ≤ 65535) : (zext32 imm).toInt = imm := by
  rw [BitVec.toInt_eq_toNat_of_lt (by rw [zext32_toNat imm h]; omega), zext32_toNat imm h]

/-- Adding a signed literal, modulo 2^32. -/
theorem add_sext32_toNat (x : Word) (off : Int) : ((x + sext32 off).toNat : Int) = (x.toNat + off) % 2 ^ 32 := by
  simp only [sext32, BitVec.toNat_add, BitVec.toNat_ofInt]
  omega

/-- The decided reading of MOV (R110). -/
theorem withLowerHalf_toNat (x : Word) (imm : Nat) (h : imm ≤ 65535) :
    (withLowerHalf x imm).toNat = x.toNat / 65536 * 65536 + imm := by
  have hx := x.isLt
  have : withLowerHalf x imm = x.extractLsb' 16 16 ++ BitVec.ofNat 16 imm := rfl
  rw [this, BitVec.toNat_append, BitVec.extractLsb'_toNat, BitVec.toNat_ofNat, Nat.shiftRight_eq_div_pow,
    ← Nat.shiftLeft_add_eq_or_of_lt (Nat.mod_lt _ (by norm_num)), Nat.shiftLeft_eq]
  omega

/-- MOVT (R111). -/
theorem withUpperHalf_toNat (x : Word) (imm : Nat) (h : imm ≤ 65535) :
    (withUpperHalf x imm).toNat = imm * 65536 + x.toNat % 65536 := by
  rw [withUpperHalf, BitVec.toNat_append, BitVec.extractLsb'_toNat, BitVec.toNat_ofNat, Nat.shiftRight_zero,
    ← Nat.shiftLeft_add_eq_or_of_lt (Nat.mod_lt _ (by norm_num)), Nat.shiftLeft_eq]
  omega

/-- The decided reading of LSL (R124). -/
theorem shiftLeft_toNat (x : Word) (n : Nat) : (shiftLeft x n).toNat = x.toNat * 2 ^ n % 2 ^ 32 := by
  have : shiftLeft x n = if n < 32 then x <<< n else 0 := rfl
  rw [this]
  split
  · rw [BitVec.toNat_shiftLeft, Nat.shiftLeft_eq]
  · rename_i hn
    obtain ⟨k, rfl⟩ := Nat.exists_eq_add_of_le (Nat.le_of_not_lt hn)
    rw [pow_add, ← mul_assoc, mul_right_comm, Nat.mul_mod_left]
    rfl

/-- The decided reading of LSR (R125). -/
theorem shiftRight_toNat (x : Word) (n : Nat) : (shiftRight x n).toNat = x.toNat / 2 ^ n := by
  have : shiftRight x n = if n < 32 then x >>> n else 0 := rfl
  rw [this]
  split
  · rw [BitVec.toNat_ushiftRight, Nat.shiftRight_eq_div_pow]
  · rename_i hn
    have : x.toNat < 2 ^ n := lt_of_lt_of_le x.isLt (Nat.pow_le_pow_right (by norm_num) (Nat.le_of_not_lt hn))
    rw [Nat.div_eq_of_lt this]
    rfl

/-- The decided branch target (R150). -/
theorem State.branchTarget_eq (s : State) (off : Int) : s.branchTarget off = s.pc + sext32 off := rfl

/-- The decided target of BR (R152). -/
theorem State.registerTarget_eq (s : State) (rd : Reg) (off : Int) : s.registerTarget rd off = s.reg rd + sext32 off := rfl

theorem State.offsetAddress_eq (s : State) (r : Reg) (off : Int) : s.offsetAddress r off = s.reg r + sext32 off := rfl

/-- The result of a sum. -/
theorem addWithCarry_result (a b : Word) : (addWithCarry a b false).1 = a + b := by
  apply BitVec.eq_of_toNat_eq
  simp [addWithCarry]

/-- The result of a difference (R10). -/
theorem subWithFlags_result (a b : Word) : (subWithFlags a b).1 = a - b := by
  have ha := a.isLt
  have hb := b.isLt
  apply BitVec.eq_of_toNat_eq
  simp only [subWithFlags, addWithCarry, BitVec.toNat_ofNat, BitVec.toNat_not, BitVec.toNat_sub, Bool.toNat_true]
  omega

/-- Under the decided carry convention CMP's flags are `AddWithCarry`'s own (D17). -/
theorem subWithFlags_eq (a b : Word) : subWithFlags a b = addWithCarry a (~~~b) true := rfl

/-- The decided flags of a logical result (R14). -/
theorem logicFlags_eq (old : Flags) (r : Word) : logicFlags old r = ⟨r.getLsbD 31, r == 0, false, false⟩ := rfl

/-- Bit 31 is the sign. -/
theorem getLsbD_31 (r : Word) : r.getLsbD 31 = true ↔ 2 ^ 31 ≤ r.toNat := by
  have h : r.getLsbD 31 = decide (2 ^ 31 ≤ r.toNat) := (BitVec.msb_eq_getLsbD_last r).symm.trans (BitVec.msb_eq_decide r)
  rw [h, decide_eq_true_eq]

/-- N of `AddWithCarry` is the result's sign (R10). -/
theorem addWithCarry_n (a b : Word) (cin : Bool) :
    (addWithCarry a b cin).2.n = true ↔ 2 ^ 31 ≤ (addWithCarry a b cin).1.toNat := getLsbD_31 _

/-- A 32-bit value is zero when its number is. -/
theorem beq_zero_iff (r : Word) : (r == 0) = true ↔ r.toNat = 0 := by
  rw [beq_iff_eq]
  exact ⟨fun h => by rw [h]; rfl, fun h => BitVec.eq_of_toNat_eq h⟩

/-- Z of `AddWithCarry` (R10). -/
theorem addWithCarry_z (a b : Word) (cin : Bool) :
    (addWithCarry a b cin).2.z = true ↔ (addWithCarry a b cin).1.toNat = 0 := beq_zero_iff _

/-- C of `AddWithCarry`: the exact unsigned sum (R10). -/
theorem addWithCarry_c (a b : Word) (cin : Bool) :
    (addWithCarry a b cin).2.c = true ↔ 2 ^ 32 ≤ a.toNat + b.toNat + cin.toNat := decide_eq_true_iff

/-- V of `AddWithCarry`: the exact signed sum (R10). -/
theorem addWithCarry_v (a b : Word) (cin : Bool) : (addWithCarry a b cin).2.v = true ↔
    (a.toInt + b.toInt + cin.toNat < -2 ^ 31 ∨ a.toInt + b.toInt + cin.toNat > 2 ^ 31 - 1) := by
  simp only [addWithCarry, Bool.or_eq_true, decide_eq_true_eq]

/-- The one's complement as a signed number. -/
theorem toInt_not (b : Word) : (~~~b).toInt = -1 - b.toInt := by
  have := b.isLt
  simp only [BitVec.toInt_eq_toNat_bmod, BitVec.toNat_not, Int.bmod_def]
  omega

end Sys2Proof.Machine
end

