-- ==== Sys2Proof/Laws/Memory.lean ====
section
/-! SUPPORT. The laws of memory: a read after a write, what a write leaves alone, the canonical form. Nothing here unfolds
`unwrittenByte`: each law holds whatever an unlisted byte reads as. -/

namespace Sys2Proof.Machine

/-! ### Bytes -/

theorem Memory.byte_of_not_listed (m : Memory) (k : Nat) (h : ∀ e ∈ m, e.1 ≠ k) : m.byte k = unwrittenByte := by
  induction m with
  | nil => rfl
  | cons e m ih =>
    have he : e.1 ≠ k := h e (by simp)
    simpa [Memory.byte, he] using ih fun f hf => h f (by simp [hf])

theorem Memory.byte_filter_ne (m : Memory) (k j : Nat) (h : j ≠ k) :
    Memory.byte (m.filter fun e => e.1 ≠ k) j = m.byte j := by
  induction m with
  | nil => rfl
  | cons e m ih =>
    by_cases hk : e.1 = k
    · have hj : e.1 ≠ j := fun hh => h (hh.symm.trans hk)
      simpa [List.filter, hk, Memory.byte, hj, h.symm] using ih
    · by_cases hj : e.1 = j
      · simp [List.filter, Memory.byte, hj, h]
      · simpa [List.filter, hk, Memory.byte, hj] using ih

theorem Memory.byte_insert_same (m : Memory) (k : Nat) (b : Byte) (h : ∀ e ∈ m, e.1 ≠ k) :
    (m.insert k b).byte k = some b := by
  induction m with
  | nil => simp [Memory.insert, Memory.byte]
  | cons e m ih =>
    have he : e.1 ≠ k := h e (by simp)
    unfold Memory.insert
    split
    · simp [Memory.byte]
    · simpa [Memory.byte, he] using ih fun f hf => h f (by simp [hf])

theorem Memory.byte_insert_ne (m : Memory) (k j : Nat) (b : Byte) (h : j ≠ k) :
    (m.insert k b).byte j = m.byte j := by
  induction m with
  | nil => simp [Memory.insert, Memory.byte, h.symm]
  | cons e m ih =>
    unfold Memory.insert
    split
    · simp [Memory.byte, h.symm]
    · by_cases hj : e.1 = j <;> simp [Memory.byte, hj, ih]

theorem Memory.filter_not_listed (m : Memory) (k : Nat) : ∀ e ∈ m.filter fun e => e.1 ≠ k, e.1 ≠ k := by
  intro e he
  simpa using (List.mem_filter.mp he).2

/-- A byte reads as last written. -/
@[simp] theorem Memory.byte_setByte_same (m : Memory) (k : Nat) (b : Byte) : (m.setByte k b).byte k = some b := by
  unfold Memory.setByte
  split
  · rename_i h
    rw [h]
    exact Memory.byte_of_not_listed _ _ (Memory.filter_not_listed m k)
  · exact Memory.byte_insert_same _ _ _ (Memory.filter_not_listed m k)

/-- A write of one byte leaves every other byte alone. -/
theorem Memory.byte_setByte_ne (m : Memory) (k j : Nat) (b : Byte) (h : j ≠ k) :
    (m.setByte k b).byte j = m.byte j := by
  unfold Memory.setByte
  split
  · exact Memory.byte_filter_ne m k j h
  · exact (Memory.byte_insert_ne _ k j b h).trans (Memory.byte_filter_ne m k j h)

theorem Memory.byte_setByte (m : Memory) (k j : Nat) (b : Byte) :
    (m.setByte k b).byte j = if j = k then some b else m.byte j := by
  split
  · rename_i h; subst h; simp
  · rename_i h; exact Memory.byte_setByte_ne m k j b h

/-! ### The canonical form -/

theorem Memory.mem_insert (m : Memory) (k : Nat) (b : Byte) (e : Host.Cell) :
    e ∈ m.insert k b ↔ e = (k, b) ∨ e ∈ m := by
  induction m with
  | nil => simp [Memory.insert]
  | cons f m ih =>
    unfold Memory.insert
    split
    · simp
    · simp only [List.mem_cons, ih]; tauto

theorem Memory.insert_rising (m : Memory) (k : Nat) (b : Byte) (h : m.Pairwise fun e f => e.1 < f.1)
    (hk : ∀ e ∈ m, e.1 ≠ k) : (m.insert k b).Pairwise fun e f => e.1 < f.1 := by
  induction m with
  | nil => simp [Memory.insert]
  | cons e m ih =>
    have he : e.1 ≠ k := hk e (by simp)
    obtain ⟨h1, h2⟩ := List.pairwise_cons.mp h
    unfold Memory.insert
    split
    · rename_i hlt
      refine List.pairwise_cons.mpr ⟨fun f hf => ?_, h⟩
      rcases List.mem_cons.mp hf with rfl | hf
      · exact hlt
      · exact lt_trans hlt (h1 f hf)
    · rename_i hge
      refine List.pairwise_cons.mpr ⟨fun f hf => ?_, ih h2 fun f hf => hk f (by simp [hf])⟩
      rcases (Memory.mem_insert m k b f).mp hf with rfl | hf
      · simp only; omega
      · exact h1 f hf

theorem Memory.mem_setByte (m : Memory) (k : Nat) (b : Byte) (e : Host.Cell) (h : e ∈ m.setByte k b) :
    e = (k, b) ∨ e ∈ m := by
  unfold Memory.setByte at h
  split at h
  · exact .inr (List.mem_filter.mp h).1
  · rcases (Memory.mem_insert _ k b e).mp h with h | h
    · exact .inl h
    · exact .inr (List.mem_filter.mp h).1

/-- A write of one byte keeps the canonical form. -/
theorem Memory.setByte_wf (m : Memory) (k : Nat) (b : Byte) (h : m.wf) : (m.setByte k b).wf := by
  have hr : (m.filter fun e => e.1 ≠ k).Pairwise fun e f => e.1 < f.1 := h.1.filter _
  have hu : ∀ e ∈ m.filter fun e => e.1 ≠ k, some e.2 ≠ unwrittenByte := fun e he => h.2 e (List.mem_filter.mp he).1
  unfold Memory.setByte
  split
  · exact ⟨hr, hu⟩
  · rename_i hb
    refine ⟨Memory.insert_rising _ k b hr (Memory.filter_not_listed m k), fun e he => ?_⟩
    rcases (Memory.mem_insert _ k b e).mp he with rfl | he
    · exact hb
    · exact hu e he

/-- A write of a cell keeps the canonical form. -/
theorem Memory.writeCell_wf (m : Memory) (a v : Word) (h : m.wf) : (m.writeCell a v).wf :=
  Memory.setByte_wf _ _ _ (Memory.setByte_wf _ _ _ (Memory.setByte_wf _ _ _ (Memory.setByte_wf _ _ _ h)))

theorem Memory.reset_wf : State.reset.mem.wf := by decide

/-! ### Cells -/

theorem cellKey_eq (a : Word) : cellKey a = 4 * a.toNat := rfl

/-- Distinct cells are four keys apart or more. -/
theorem cellKey_apart (a b : Word) (h : a ≠ b) : cellKey a + 4 ≤ cellKey b ∨ cellKey b + 4 ≤ cellKey a := by
  have : a.toNat ≠ b.toNat := fun e => h (BitVec.eq_of_toNat_eq e)
  simp only [cellKey_eq]; omega

theorem wordOfBytes_byteOfWord (v : Word) :
    wordOfBytes (byteOfWord v 0) (byteOfWord v 1) (byteOfWord v 2) (byteOfWord v 3) = v := by
  show v.extractLsb' (8 * 3) 8 ++ v.extractLsb' (8 * 2) 8 ++ v.extractLsb' (8 * 1) 8 ++ v.extractLsb' (8 * 0) 8 = v
  ext i hi
  simp only [BitVec.getElem_append, BitVec.getElem_extractLsb', BitVec.getLsbD]
  split_ifs
  all_goals
    refine congrArg v.toNat.testBit (?_ : _ = i)
    omega

/-- Which bytes a write of a cell changes. -/
theorem Memory.byte_writeCell (m : Memory) (a v : Word) (k : Nat) :
    (m.writeCell a v).byte k =
      if k = cellKey a + 3 then some (byteOfWord v 3) else if k = cellKey a + 2 then some (byteOfWord v 2)
      else if k = cellKey a + 1 then some (byteOfWord v 1) else if k = cellKey a then some (byteOfWord v 0)
      else m.byte k := by
  simp only [Memory.writeCell, Memory.byte_setByte]

/-- A write of a cell leaves every byte outside the cell alone. -/
theorem Memory.byte_writeCell_outside (m : Memory) (a v : Word) (k : Nat)
    (h : ¬ (cellKey a ≤ k ∧ k < cellKey a + 4)) : (m.writeCell a v).byte k = m.byte k := by
  rw [Memory.byte_writeCell]
  split_ifs <;> first | rfl | omega

/-- A cell reads as last written (R43, R44). -/
@[simp] theorem Memory.readCell_writeCell_same (m : Memory) (a v : Word) : (m.writeCell a v).readCell a = some v := by
  simp [Memory.readCell, Memory.byte_writeCell, wordOfBytes_byteOfWord]

/-- A write of one cell changes no other cell (R40, R44). -/
theorem Memory.readCell_writeCell_ne (m : Memory) (a v b : Word) (h : b ≠ a) :
    (m.writeCell a v).readCell b = m.readCell b := by
  have hk := cellKey_apart b a h
  have hout : ∀ j, j < 4 → (m.writeCell a v).byte (cellKey b + j) = m.byte (cellKey b + j) := fun j hj =>
    Memory.byte_writeCell_outside m a v _ (by omega)
  simp only [Memory.readCell, hout 1 (by omega), hout 2 (by omega), hout 3 (by omega)]
  rw [show (m.writeCell a v).byte (cellKey b) = m.byte (cellKey b) from hout 0 (by omega)]

theorem Memory.readCell_writeCell (m : Memory) (a v b : Word) :
    (m.writeCell a v).readCell b = if b = a then some v else m.readCell b := by
  split
  · rename_i h; subst h; simp
  · rename_i h; exact Memory.readCell_writeCell_ne m a v b h

/-- The entries of a memory after a write of a cell. -/
theorem Memory.mem_writeCell (m : Memory) (a v : Word) (e : Host.Cell) (h : e ∈ m.writeCell a v) :
    (cellKey a ≤ e.1 ∧ e.1 < cellKey a + 4) ∨ e ∈ m := by
  unfold Memory.writeCell at h
  rcases Memory.mem_setByte _ _ _ _ h with rfl | h
  · left; simp only; omega
  rcases Memory.mem_setByte _ _ _ _ h with rfl | h
  · left; simp only; omega
  rcases Memory.mem_setByte _ _ _ _ h with rfl | h
  · left; simp only; omega
  rcases Memory.mem_setByte _ _ _ _ h with rfl | h
  · left; simp only; omega
  · exact .inr h

/-! ### Accesses -/

/-- Everything `memRead` can answer (R43). -/
theorem State.memRead_cases (s : State) (k : Access) (a : Word) :
    (∃ v, s.implements a = true ∧ s.mem.readCell a = some v ∧ s.memRead k a = .ok v) ∨
    (s.implements a = true ∧ s.mem.readCell a = none ∧ s.memRead k a = .error (.uninitialisedRead a k s.pc)) ∨
    (s.implements a = false ∧ s.memRead k a = .error (.memoryFault a k s.pc)) := by
  unfold State.memRead
  cases hi : s.implements a
  · simp
  · cases hr : s.mem.readCell a <;> simp

theorem State.memRead_eq_ok (s : State) (k : Access) (a v : Word) :
    s.memRead k a = .ok v ↔ s.implements a = true ∧ s.mem.readCell a = some v := by
  rcases s.memRead_cases k a with ⟨u, hi, hr, h⟩ | ⟨hi, hr, h⟩ | ⟨hi, h⟩ <;> simp_all

/-- Everything `memWrite` can answer (R44). -/
theorem State.memWrite_cases (s : State) (a v : Word) :
    (s.implements a = true ∧ s.memWrite a v = .ok (s.setMem (s.mem.writeCell a v))) ∨
    (s.implements a = false ∧ s.memWrite a v = .error (.memoryFault a .store s.pc)) := by
  unfold State.memWrite
  cases hi : s.implements a <;> simp

end Sys2Proof.Machine
end

