-- ==== Sys2Proof/Laws/Exec.lean ====
section
/-! SUPPORT. What a step and each shared way of ending can do, said once: later proofs cite these and do not unfold `exec`. -/

namespace Sys2Proof.Machine

/-- Everything LOAD can do (R100). -/
theorem execLoad_cases (rd rp : Reg) (off : Int) (s : State) :
    (∃ v, s.implements (s.offsetAddress rp off) = true ∧ s.mem.readCell (s.offsetAddress rp off) = some v ∧
      exec (.load rd rp off) s = .next (s.finish rd v)) ∨
    (s.implements (s.offsetAddress rp off) = true ∧ s.mem.readCell (s.offsetAddress rp off) = none ∧
      exec (.load rd rp off) s = .fault (.uninitialisedRead (s.offsetAddress rp off) .load s.pc)) ∨
    (s.implements (s.offsetAddress rp off) = false ∧
      exec (.load rd rp off) s = .fault (.memoryFault (s.offsetAddress rp off) .load s.pc)) := by
  rcases s.memRead_cases .load (s.offsetAddress rp off) with ⟨v, hi, hr, h⟩ | ⟨hi, hr, h⟩ | ⟨hi, h⟩
  · exact .inl ⟨v, hi, hr, by simp [exec, execLoad, h]⟩
  · exact .inr (.inl ⟨hi, hr, by simp [exec, execLoad, h]⟩)
  · exact .inr (.inr ⟨hi, by simp [exec, execLoad, h]⟩)

/-- Everything STOR can do (R101). -/
theorem execStor_cases (rd rp : Reg) (off : Int) (s : State) :
    (s.implements (s.offsetAddress rp off) = true ∧
      exec (.stor rd rp off) s =
        .next (s.setMem (s.mem.writeCell (s.offsetAddress rp off) (s.reg rd))).advance) ∨
    (s.implements (s.offsetAddress rp off) = false ∧
      exec (.stor rd rp off) s = .fault (.memoryFault (s.offsetAddress rp off) .store s.pc)) := by
  rcases s.memWrite_cases (s.offsetAddress rp off) (s.reg rd) with ⟨hi, h⟩ | ⟨hi, h⟩
  · exact .inl ⟨hi, by simp [exec, execStor, h]⟩
  · exact .inr ⟨hi, by simp [exec, execStor, h]⟩

/-- Every instruction but LOAD and STOR completes, with memory and MEM_DOMAIN as they were. -/
theorem exec_without_access (i : Instr) (s : State) (hl : ∀ rd rp off, i ≠ .load rd rp off)
    (hs : ∀ rd rp off, i ≠ .stor rd rp off) :
    ∃ t, exec i s = .next t ∧ t.mem = s.mem ∧ t.memDomain = s.memDomain := by
  cases i with
  | load rd rp off => exact absurd rfl (hl rd rp off)
  | stor rd rp off => exact absurd rfl (hs rd rp off)
  | bCond c off =>
    refine ⟨_, rfl, ?_, ?_⟩ <;> split <;> rfl
  | _ => exact ⟨_, rfl, rfl, rfl⟩

/-- Everything that can make an instruction fail (R171 to R175): the access of a LOAD or a STOR. -/
theorem exec_fault (i : Instr) (s : State) (f : Fault) (h : exec i s = .fault f) :
    (∃ rd rp off, i = .load rd rp off ∧
      ((s.implements (s.offsetAddress rp off) = true ∧ s.mem.readCell (s.offsetAddress rp off) = none ∧
          f = .uninitialisedRead (s.offsetAddress rp off) .load s.pc) ∨
        (s.implements (s.offsetAddress rp off) = false ∧ f = .memoryFault (s.offsetAddress rp off) .load s.pc))) ∨
    (∃ rd rp off, i = .stor rd rp off ∧ s.implements (s.offsetAddress rp off) = false ∧
      f = .memoryFault (s.offsetAddress rp off) .store s.pc) := by
  by_cases hl : ∃ rd rp off, i = .load rd rp off
  · obtain ⟨rd, rp, off, rfl⟩ := hl
    refine .inl ⟨rd, rp, off, rfl, ?_⟩
    rcases execLoad_cases rd rp off s with ⟨v, _, _, e⟩ | ⟨hi, hr, e⟩ | ⟨hi, e⟩ <;> rw [e] at h <;> cases h
    · exact .inl ⟨hi, hr, rfl⟩
    · exact .inr ⟨hi, rfl⟩
  by_cases hs : ∃ rd rp off, i = .stor rd rp off
  · obtain ⟨rd, rp, off, rfl⟩ := hs
    refine .inr ⟨rd, rp, off, rfl, ?_⟩
    rcases execStor_cases rd rp off s with ⟨_, e⟩ | ⟨hi, e⟩ <;> rw [e] at h <;> cases h
    exact ⟨hi, rfl⟩
  · simp only [not_exists] at hl hs
    obtain ⟨u, e, _, _⟩ := exec_without_access i s hl hs
    rw [e] at h
    cases h

/-- What any completed instruction does to memory: nothing, or one implemented cell written. -/
theorem exec_next_memory (i : Instr) (s t : State) (h : exec i s = .next t) :
    t.memDomain = s.memDomain ∧
      (t.mem = s.mem ∨ ∃ a v, s.implements a = true ∧ t.mem = s.mem.writeCell a v) := by
  by_cases hl : ∃ rd rp off, i = .load rd rp off
  · obtain ⟨rd, rp, off, rfl⟩ := hl
    rcases execLoad_cases rd rp off s with ⟨v, _, _, e⟩ | ⟨_, _, e⟩ | ⟨_, e⟩ <;> rw [e] at h <;> cases h
    exact ⟨rfl, .inl rfl⟩
  by_cases hs : ∃ rd rp off, i = .stor rd rp off
  · obtain ⟨rd, rp, off, rfl⟩ := hs
    rcases execStor_cases rd rp off s with ⟨hi, e⟩ | ⟨_, e⟩ <;> rw [e] at h <;> cases h
    exact ⟨rfl, .inr ⟨_, _, hi, rfl⟩⟩
  · simp only [not_exists] at hl hs
    obtain ⟨u, e, hm, hd⟩ := exec_without_access i s hl hs
    rw [e] at h
    cases h
    exact ⟨hd, .inl hm⟩

/-- What a step runs (R170). -/
theorem step_of_fetch (s : State) (w : Word) (i : Instr) (hh : s.halted = false) (hi : s.implements s.pc = true)
    (hr : s.mem.readCell s.pc = some w) (hd : decode w = .ok i) : step s = exec i s := by
  have hf : s.fetchWord = .ok w := (s.memRead_eq_ok .fetch s.pc w).mpr ⟨hi, hr⟩
  simp [step, State.nextInstr, hh, hf, hd]

/-- Everything a step can do (R170, R178). -/
theorem step_cases (s : State) :
    (s.halted = true ∧ step s = .fault .cpuStopped) ∨
    (s.halted = false ∧ s.implements s.pc = false ∧ step s = .fault (.memoryFault s.pc .fetch s.pc)) ∨
    (s.halted = false ∧ s.implements s.pc = true ∧ s.mem.readCell s.pc = none ∧
      step s = .fault (.uninitialisedRead s.pc .fetch s.pc)) ∨
    (∃ w e, s.halted = false ∧ s.implements s.pc = true ∧ s.mem.readCell s.pc = some w ∧ decode w = .error e ∧
      step s = .fault (.undefinedInstruction w s.pc)) ∨
    (∃ w i, s.halted = false ∧ s.implements s.pc = true ∧ s.mem.readCell s.pc = some w ∧ decode w = .ok i ∧
      step s = exec i s) := by
  cases hh : s.halted
  · right
    rcases s.memRead_cases .fetch s.pc with ⟨w, hi, hr, h⟩ | ⟨hi, hr, h⟩ | ⟨hi, h⟩
    · right; right
      cases hd : decode w with
      | error e => exact .inl ⟨w, e, rfl, hi, hr, hd, by simp [step, State.nextInstr, State.fetchWord, hh, h, hd]⟩
      | ok i => exact .inr ⟨w, i, rfl, hi, hr, hd, step_of_fetch s w i hh hi hr hd⟩
    · exact .inr (.inl ⟨rfl, hi, hr, by simp [step, State.nextInstr, State.fetchWord, hh, h]⟩)
    · exact .inl ⟨rfl, hi, by simp [step, State.nextInstr, State.fetchWord, hh, h]⟩
  · exact .inl ⟨rfl, by simp [step, State.nextInstr, hh]⟩

/-- A step that completes ran the instruction the cell at the pc decodes to. -/
theorem step_next (s t : State) (h : step s = .next t) :
    ∃ w i, s.halted = false ∧ s.implements s.pc = true ∧ s.mem.readCell s.pc = some w ∧ decode w = .ok i ∧
      exec i s = .next t := by
  rcases step_cases s with ⟨_, e⟩ | ⟨_, _, e⟩ | ⟨_, _, _, e⟩ | ⟨_, _, _, _, _, _, e⟩ | ⟨w, i, h1, h2, h3, h4, e⟩ <;>
    rw [e] at h <;> try cases h
  exact ⟨w, i, h1, h2, h3, h4, h⟩

/-- Everything that can make a step stop (R170, R172, R178): no step at all, the fetch, the decoding, or the instruction's access. -/
theorem step_fault (s : State) (f : Fault) (h : step s = .fault f) :
    (s.halted = true ∧ f = .cpuStopped) ∨
    (s.halted = false ∧ s.implements s.pc = false ∧ f = .memoryFault s.pc .fetch s.pc) ∨
    (s.halted = false ∧ s.implements s.pc = true ∧ s.mem.readCell s.pc = none ∧
      f = .uninitialisedRead s.pc .fetch s.pc) ∨
    (∃ w e, s.halted = false ∧ s.implements s.pc = true ∧ s.mem.readCell s.pc = some w ∧ decode w = .error e ∧
      f = .undefinedInstruction w s.pc) ∨
    (∃ w i, s.halted = false ∧ s.implements s.pc = true ∧ s.mem.readCell s.pc = some w ∧ decode w = .ok i ∧
      exec i s = .fault f) := by
  rcases step_cases s with ⟨hh, e⟩ | ⟨hh, hi, e⟩ | ⟨hh, hi, hr, e⟩ | ⟨w, d, hh, hi, hr, hd, e⟩ | ⟨w, i, hh, hi, hr, hd, e⟩ <;>
    rw [h] at e
  · exact .inl ⟨hh, by injection e⟩
  · exact .inr (.inl ⟨hh, hi, by injection e⟩)
  · exact .inr (.inr (.inl ⟨hh, hi, hr, by injection e⟩))
  · exact .inr (.inr (.inr (.inl ⟨w, d, hh, hi, hr, hd, by injection e⟩)))
  · exact .inr (.inr (.inr (.inr ⟨w, i, hh, hi, hr, hd, e.symm⟩)))

/-- What any step does to memory. -/
theorem step_next_memory (s t : State) (h : step s = .next t) :
    t.memDomain = s.memDomain ∧
      (t.mem = s.mem ∨ ∃ a v, s.implements a = true ∧ t.mem = s.mem.writeCell a v) := by
  obtain ⟨_, i, _, _, _, _, he⟩ := step_next s t h
  exact exec_next_memory i s t he

/-! ### The frames of the shared endings -/

theorem State.finish_dataFrame (s : State) (rd : Reg) (v : Word) : DataFrame rd s (s.finish rd v) :=
  ⟨fun r h => by simp [h], rfl, rfl, rfl, fun _ => rfl⟩

theorem State.finishFlags_dataFrame (s : State) (rd : Reg) (v : Word) (f : Flags) :
    DataFrame rd s (s.finishFlags rd v f) :=
  ⟨fun r h => by simp [h], rfl, rfl, rfl, fun _ => rfl⟩

theorem State.setPc_branchFrame (s : State) (t : Word) : BranchFrame s (s.setPc t) :=
  ⟨fun _ => rfl, rfl, rfl, rfl, fun _ => rfl⟩

theorem State.advance_branchFrame (s : State) : BranchFrame s s.advance :=
  ⟨fun _ => rfl, rfl, rfl, rfl, fun _ => rfl⟩

/-- The decided flags of a logical result, as R14 says them. -/
theorem logicFlags_of (old : Flags) (r : Word) : LogicFlagsOf r (logicFlags old r) :=
  ⟨getLsbD_31 r, beq_zero_iff r, rfl, rfl⟩

end Sys2Proof.Machine
end

