-- ==== Sys2Proof/Laws/PerInstr.lean ====
section
/-! SUPPORT. The family RowWord: the word the encoder gives an instruction is a word of its row of the opcode list (30_encoding.md R75). -/

namespace Sys2Proof.Laws.RowWord

/-- The canonical word of the instruction matches its row. -/
def Statement (i : Instr) : Prop := i.row.matches (encode i) = true

theorem of_layout (op m : BitVec 7) (d a b : BitVec 3) (low : BitVec 16) (name : String) :
    OpcodeRow.matches ⟨name, layout (op &&& m) 0 0 0 0, layout m 0 0 0 0⟩ (layout op d a b low) = true := by
  simp only [OpcodeRow.matches, layout_and_mask, beq_self_eq_true]

theorem load (rd rp : Reg) (off : Int) : Statement (.load rd rp off) := of_layout 0b1000000 0b1100001 _ _ _ _ _

theorem stor (rd rp : Reg) (off : Int) : Statement (.stor rd rp off) := of_layout 0b1000001 0b1100001 _ _ _ _ _

theorem mov (rd : Reg) (imm : Nat) : Statement (.mov rd imm) := of_layout 0b0 0b1110111 _ _ _ _ _

theorem movt (rd : Reg) (imm : Nat) : Statement (.movt rd imm) := of_layout 0b1 0b1110111 _ _ _ _ _

theorem addImm (rd ra : Reg) (imm : Nat) : Statement (.addImm rd ra imm) := of_layout 0b10001 0b1111111 _ _ _ _ _

theorem addsImm (rd ra : Reg) (imm : Nat) : Statement (.addsImm rd ra imm) := of_layout 0b11001 0b1111111 _ _ _ _ _

theorem subImm (rd ra : Reg) (imm : Nat) : Statement (.subImm rd ra imm) := of_layout 0b10010 0b1111111 _ _ _ _ _

theorem cmpImm (rd ra : Reg) (imm : Nat) : Statement (.cmpImm rd ra imm) := of_layout 0b11010 0b1111111 _ _ _ _ _

theorem andImm (rd ra : Reg) (imm : Nat) : Statement (.andImm rd ra imm) := of_layout 0b10011 0b1111111 _ _ _ _ _

theorem andsImm (rd ra : Reg) (imm : Nat) : Statement (.andsImm rd ra imm) := of_layout 0b11011 0b1111111 _ _ _ _ _

theorem orImm (rd ra : Reg) (imm : Nat) : Statement (.orImm rd ra imm) := of_layout 0b10100 0b1111111 _ _ _ _ _

theorem orsImm (rd ra : Reg) (imm : Nat) : Statement (.orsImm rd ra imm) := of_layout 0b11100 0b1111111 _ _ _ _ _

theorem xorImm (rd ra : Reg) (imm : Nat) : Statement (.xorImm rd ra imm) := of_layout 0b10101 0b1111111 _ _ _ _ _

theorem xorsImm (rd ra : Reg) (imm : Nat) : Statement (.xorsImm rd ra imm) := of_layout 0b11101 0b1111111 _ _ _ _ _

theorem lsl (rd rs : Reg) (imm : Nat) : Statement (.lsl rd rs imm) := of_layout 0b100 0b1110101 _ _ _ _ _

theorem lsr (rd rs : Reg) (imm : Nat) : Statement (.lsr rd rs imm) := of_layout 0b101 0b1110101 _ _ _ _ _

theorem clr (rd : Reg) : Statement (.clr rd) := of_layout 0b10 0b1110111 _ _ _ _ _

theorem set (rd : Reg) : Statement (.set rd) := of_layout 0b11 0b1110111 _ _ _ _ _

theorem addReg (rd ra rb : Reg) : Statement (.addReg rd ra rb) := of_layout 0b110001 0b1111111 _ _ _ _ _

theorem addsReg (rd ra rb : Reg) : Statement (.addsReg rd ra rb) := of_layout 0b111001 0b1111111 _ _ _ _ _

theorem subReg (rd ra rb : Reg) : Statement (.subReg rd ra rb) := of_layout 0b110010 0b1111111 _ _ _ _ _

theorem cmpReg (rd ra rb : Reg) : Statement (.cmpReg rd ra rb) := of_layout 0b111010 0b1111111 _ _ _ _ _

theorem andReg (rd ra rb : Reg) : Statement (.andReg rd ra rb) := of_layout 0b110011 0b1111111 _ _ _ _ _

theorem andsReg (rd ra rb : Reg) : Statement (.andsReg rd ra rb) := of_layout 0b111011 0b1111111 _ _ _ _ _

theorem orReg (rd ra rb : Reg) : Statement (.orReg rd ra rb) := of_layout 0b110100 0b1111111 _ _ _ _ _

theorem orsReg (rd ra rb : Reg) : Statement (.orsReg rd ra rb) := of_layout 0b111100 0b1111111 _ _ _ _ _

theorem xorReg (rd ra rb : Reg) : Statement (.xorReg rd ra rb) := of_layout 0b110101 0b1111111 _ _ _ _ _

theorem xorsReg (rd ra rb : Reg) : Statement (.xorsReg rd ra rb) := of_layout 0b111101 0b1111111 _ _ _ _ _

theorem not (rd ra : Reg) : Statement (.not rd ra) := of_layout 0b110110 0b1111111 _ _ _ _ _

theorem b (off : Int) : Statement (.b off) := of_layout 0b1100000 0b1101111 _ _ _ _ _

theorem bCond (cond : Cond) (off : Int) : Statement (.bCond cond off) := of_layout 0b1100001 0b1101111 _ _ _ _ _

theorem br (rd : Reg) (off : Int) : Statement (.br rd off) := of_layout 0b1100010 0b1101111 _ _ _ _ _

theorem nop : Statement (.nop) := of_layout 0b1100100 0b1101100 _ _ _ _ _

theorem halt : Statement (.halt) := of_layout 0b1101000 0b1101000 _ _ _ _ _

end Sys2Proof.Laws.RowWord
end

