-- ==== Sys2Proof/Tests/Slice0.lean ====
section
/-! SUPPORT. Small tests, each about one word or one step. Expected results are the spec's own vectors (95_test_vectors.md T1 to T9)
and the examples and corner cases of the instruction rules; the last part shows that the hypotheses of the statements in
Certificates/Slice0/Obligations.lean can be met. -/

namespace Sys2Proof.Tests

open Sys2Proof Sys2Proof.Machine

/-! ### Ill-formed terms are refused (30_encoding.md R64, R81) -/

theorem test_ill_formed_offsets :
    Instr.wellFormed (.load 1 2 32768) = false ∧ Instr.wellFormed (.load 1 2 (-32769)) = false ∧
    Instr.wellFormed (.stor 1 2 32768) = false ∧ Instr.wellFormed (.stor 1 2 (-32769)) = false := by decide

theorem test_ill_formed_moves :
    Instr.wellFormed (.mov 1 65536) = false ∧
    Instr.wellFormed (.movt 1 65536) = false := by decide

theorem test_ill_formed_immediates :
    Instr.wellFormed (.addImm 1 2 65536) = false ∧
    Instr.wellFormed (.addsImm 1 2 65536) = false ∧
    Instr.wellFormed (.subImm 1 2 65536) = false ∧
    Instr.wellFormed (.cmpImm 1 2 65536) = false := by decide

theorem test_ill_formed_logic_immediates :
    Instr.wellFormed (.andImm 1 2 65536) = false ∧
    Instr.wellFormed (.andsImm 1 2 65536) = false ∧
    Instr.wellFormed (.orImm 1 2 65536) = false ∧
    Instr.wellFormed (.orsImm 1 2 65536) = false ∧
    Instr.wellFormed (.xorImm 1 2 65536) = false ∧
    Instr.wellFormed (.xorsImm 1 2 65536) = false := by decide

theorem test_ill_formed_shifts :
    Instr.wellFormed (.lsl 1 2 65536) = false ∧
    Instr.wellFormed (.lsr 1 2 65536) = false := by decide

theorem test_ill_formed_branches :
    Instr.wellFormed (.b 32768) = false ∧ Instr.wellFormed (.b (-32769)) = false ∧
    Instr.wellFormed (.bCond .eq 32768) = false ∧ Instr.wellFormed (.bCond .eq (-32769)) = false ∧
    Instr.wellFormed (.br 1 32768) = false ∧ Instr.wellFormed (.br 1 (-32769)) = false := by decide

/-- The ends of the ranges are well-formed. -/
theorem test_well_formed_ends :
    Instr.wellFormed (.load 7 0 32767) = true ∧ Instr.wellFormed (.stor 0 7 (-32768)) = true ∧
    Instr.wellFormed (.mov 0 65535) = true ∧ Instr.wellFormed (.lsr 7 7 65535) = true ∧
    Instr.wellFormed (.b (-32768)) = true ∧ Instr.wellFormed (.br 3 32767) = true := by decide

/-! ### Decoding: every constructor, from the bits of its figure (30_encoding.md R65, R75; T1) -/

theorem test_decode_load : decode 0b10000000010100001111111111111100#32 = .ok (.load 1 2 (-4)) := by decide

theorem test_decode_stor : decode 0b10000010111000000000000000000010#32 = .ok (.stor 3 4 2) := by decide

theorem test_decode_mov : decode 0b00000000010000000001001000110100#32 = .ok (.mov 1 0x1234) := by decide

theorem test_decode_movt : decode 0b00000010010000001010101111001101#32 = .ok (.movt 1 0xABCD) := by decide

theorem test_decode_addImm : decode 0b00100010100010000000000000000101#32 = .ok (.addImm 2 1 5) := by decide

theorem test_decode_addsImm : decode 0b00110010100010000000000000000001#32 = .ok (.addsImm 2 1 1) := by decide

theorem test_decode_subImm : decode 0b00100100100010000000000000000001#32 = .ok (.subImm 2 1 1) := by decide

theorem test_decode_cmpImm : decode 0b00110101110010000000000000001010#32 = .ok (.cmpImm 7 1 10) := by decide

theorem test_decode_andImm : decode 0b00100110100010000000000011111111#32 = .ok (.andImm 2 1 0xFF) := by decide

theorem test_decode_andsImm : decode 0b00110110100010001000000000000000#32 = .ok (.andsImm 2 1 0x8000) := by decide

theorem test_decode_orImm : decode 0b00101000100010001111000011110000#32 = .ok (.orImm 2 1 0xF0F0) := by decide

theorem test_decode_orsImm : decode 0b00111000100010000000000000000000#32 = .ok (.orsImm 2 1 0) := by decide

theorem test_decode_xorImm : decode 0b00101010100010001111111111111111#32 = .ok (.xorImm 2 1 0xFFFF) := by decide

theorem test_decode_xorsImm : decode 0b00111010100010000001001000110100#32 = .ok (.xorsImm 2 1 0x1234) := by decide

theorem test_decode_lsl : decode 0b00001000100010000000000000000100#32 = .ok (.lsl 2 1 4) := by decide

theorem test_decode_lsr : decode 0b00001010100010000000000000000100#32 = .ok (.lsr 2 1 4) := by decide

theorem test_decode_clr : decode 0b00000101010000000000000000000000#32 = .ok (.clr 5) := by decide

theorem test_decode_set : decode 0b00000111010000000000000000000000#32 = .ok (.set 5) := by decide

theorem test_decode_addReg : decode 0b01100010110010100000000000000000#32 = .ok (.addReg 3 1 2) := by decide

theorem test_decode_addsReg : decode 0b01110010110010100000000000000000#32 = .ok (.addsReg 3 1 2) := by decide

theorem test_decode_subReg : decode 0b01100100110010100000000000000000#32 = .ok (.subReg 3 1 2) := by decide

theorem test_decode_cmpReg : decode 0b01110100110010100000000000000000#32 = .ok (.cmpReg 3 1 2) := by decide

theorem test_decode_andReg : decode 0b01100110110010100000000000000000#32 = .ok (.andReg 3 1 2) := by decide

theorem test_decode_andsReg : decode 0b01110110110010100000000000000000#32 = .ok (.andsReg 3 1 2) := by decide

theorem test_decode_orReg : decode 0b01101000110010100000000000000000#32 = .ok (.orReg 3 1 2) := by decide

theorem test_decode_orsReg : decode 0b01111000110010100000000000000000#32 = .ok (.orsReg 3 1 2) := by decide

theorem test_decode_xorReg : decode 0b01101010110010100000000000000000#32 = .ok (.xorReg 3 1 2) := by decide

theorem test_decode_xorsReg : decode 0b01111010110010100000000000000000#32 = .ok (.xorsReg 3 1 2) := by decide

theorem test_decode_not : decode 0b01101100110010000000000000000000#32 = .ok (.not 3 1) := by decide

theorem test_decode_b : decode 0b11000000000000001111111111111101#32 = .ok (.b (-3)) := by decide

theorem test_decode_bCond : decode 0b11000010001000001111111111111101#32 = .ok (.bCond .ne (-3)) := by decide

theorem test_decode_br : decode 0b11000101100000001111111111111111#32 = .ok (.br 6 (-1)) := by decide

theorem test_decode_nop : decode 0b11001000000000000000000000000000#32 = .ok .nop := by decide

theorem test_decode_halt : decode 0b11010000000000000000000000000000#32 = .ok .halt := by decide

/-- Words with nonzero `x` bits (T1, second group; R62). -/
theorem test_decode_x_bits :
    decode 0xBC500004#32 = .ok (.load 1 2 4) ∧ decode 0x80570004#32 = .ok (.load 1 2 4) ∧
    decode 0x10401234#32 = .ok (.mov 1 0x1234) ∧ decode 0x003F1234#32 = .ok (.mov 0 0x1234) ∧
    decode 0x0C880004#32 = .ok (.lsl 2 1 4) ∧ decode 0x1E880004#32 = .ok (.lsr 2 1 4) ∧
    decode 0x057FFFFF#32 = .ok (.clr 5) ∧ decode 0x62CAFFFF#32 = .ok (.addReg 3 1 2) ∧
    decode 0x6CCFFFFF#32 = .ok (.not 3 1) ∧ decode 0xE000FFFD#32 = .ok (.b (-3)) ∧
    decode 0xC23FFFFD#32 = .ok (.bCond .ne (-3)) ∧ decode 0xC5BFFFFF#32 = .ok (.br 6 (-1)) ∧
    decode 0xCFFFFFFF#32 = .ok .nop ∧ decode 0xD8000000#32 = .ok .halt ∧ decode 0xFFFFFFFF#32 = .ok .halt ∧
    decode 0x00000000#32 = .ok (.mov 0 0) := by decide

/-- Words of the four undefined groups (T1, third group; R77). -/
theorem test_decode_undefined :
    decode 0x20000000#32 = .error .noImmediateOp ∧ decode 0x2C880001#32 = .error .noImmediateOp ∧
    decode 0x3E000000#32 = .error .noImmediateOp ∧ decode 0x40000000#32 = .error .noRegisterForm ∧
    decode 0x5FFFFFFF#32 = .error .noRegisterForm ∧ decode 0x60000000#32 = .error .noRegisterOp ∧
    decode 0x7CC80000#32 = .error .noRegisterOp ∧ decode 0x6E000000#32 = .error .noRegisterOp ∧
    decode 0xC6000000#32 = .error .noBranchSlot ∧ decode 0xE7FFFFFF#32 = .error .noBranchSlot := by decide

/-- Of the 128 values of bits [31:25], 29 are undefined (R75, R77). -/
theorem test_decode_count :
    ((List.range 128).filter fun k => (decode (BitVec.ofNat 32 (k * 2 ^ 25))).toOption.isNone).length = 29 := by decide

/-- The sixteen condition codes by their encodings (R29). -/
theorem test_decode_conditions :
    [Cond.eq, .ne, .cs, .cc, .mi, .pl, .vs, .vc, .hi, .ls, .ge, .lt, .gt, .le, .al, .nv].map Cond.code =
      (List.range 16).map (BitVec.ofNat 4) := by decide

/-- The encoder's words are those of the rules' examples (R81). -/
theorem test_encode :
    encode (.load 1 2 (-4)) = 0x8050FFFC ∧ encode (.cmpImm 7 1 10) = 0x35C8000A ∧ encode (.not 3 1) = 0x6CC80000 ∧
    encode (.bCond .ne (-3)) = 0xC220FFFD ∧ encode (.br 6 (-1)) = 0xC580FFFF ∧ encode .halt = 0xD0000000 := by decide

/-- The host's numbering of a table word is the cell's own. -/
theorem test_decodeTableWord :
    decodeTableWord 32 0x82E00002 = some (.stor 3 4 2) ∧ decodeTableWord 32 0x40000000 = none := by decide

/-! ### One step from a small state: the instruction at 0x100, MEM_DOMAIN 0 .. 0xFFF (T2 to T8) -/

/-- Flags from four digits N Z C V. -/
def nzcv (n z c v : Nat) : Flags := ⟨n == 1, z == 1, c == 1, v == 1⟩

/-- The word `w` at 0x100, some registers and some cells written. -/
def start (w : Word) (regs : List (Reg × Word)) (f : Flags) (cells : List (Word × Word)) : State where
  regs := regs.foldl (fun r e => r.set e.1 e.2) (Vector.replicate 8 0)
  pc := 0x100
  flags := f
  halted := false
  memDomain := [⟨0x000, 0xFFF⟩]
  mem := cells.foldl (fun m e => m.writeCell e.1 e.2) (Memory.writeCell [] 0x100 w)

/-- The step from `s` completes in a state of which `p` holds. -/
def completes (s : State) (p : State → Bool) : Bool :=
  match step s with
  | .next t => p t
  | .fault _ => false
  | .refused _ => false

/-- The step from `s` stops with `f`. -/
def stops (s : State) (f : Fault) : Bool :=
  match step s with
  | .next _ => false
  | .fault e => e == f
  | .refused _ => false

/-- Register `r` holds `v`, the flags are `f`, the pc is the next cell's. -/
def gives (r : Reg) (v : Word) (f : Flags) (t : State) : Bool :=
  t.reg r == v && t.flags == f && t.pc == 0x101 && !t.halted

/-- T2: ea = 0x204 - 4. -/
theorem test_load_negative_offset :
    completes (start 0x8050FFFC [(2, 0x204)] (nzcv 0 0 0 0) [(0x200, 0xCAFEF00D)]) (gives 1 0xCAFEF00D (nzcv 0 0 0 0)) = true := by decide

/-- T2: the address wraps to 0; rd = rp, flags not written. -/
theorem test_load_wraps_and_overwrites_pointer :
    completes (start 0x80900001 [(2, 0xFFFFFFFF)] (nzcv 1 1 1 1) [(0x000, 0x11111111)]) (gives 2 0x11111111 (nzcv 1 1 1 1)) = true := by decide

/-- T2: the first address outside MEM_DOMAIN on the wrap, and a cell nothing has written. -/
theorem test_load_faults :
    stops (start 0x8050FFFF [(2, 0)] (nzcv 0 0 0 0) []) (.memoryFault 0xFFFFFFFF .load 0x100) = true ∧
    stops (start 0x80500000 [(2, 0x300)] (nzcv 0 0 0 0) []) (.uninitialisedRead 0x300 .load 0x100) = true := by decide

/-- T2: the cell takes the register's value, whole; the cell beside it keeps its own. -/
theorem test_stor_writes :
    completes (start 0x82E00002 [(3, 0xDEADBEEF), (4, 0x200)] (nzcv 1 1 1 1) [(0x202, 0xAAAAAAAA), (0x203, 0x55667788)])
      (fun t => t.mem.readCell 0x202 == some 0xDEADBEEF && t.mem.readCell 0x203 == some 0x55667788 &&
        gives 3 0xDEADBEEF (nzcv 1 1 1 1) t) = true := by decide

/-- T2: the first address outside MEM_DOMAIN. -/
theorem test_stor_faults :
    stops (start 0x82E00000 [(3, 7), (4, 0x1000)] (nzcv 0 0 0 0) []) (.memoryFault 0x1000 .store 0x100) = true := by decide

/-- T3 (D14). -/
theorem test_mov_keeps_upper :
    completes (start 0x00401234 [(1, 0xAAAA5555)] (nzcv 1 1 1 1) []) (gives 1 0xAAAA1234 (nzcv 1 1 1 1)) = true := by decide

/-- T3. -/
theorem test_movt_keeps_lower :
    completes (start 0x0240ABCD [(1, 0xAAAA5555)] (nzcv 0 0 0 0) []) (gives 1 0xABCD5555 (nzcv 0 0 0 0)) = true := by decide

/-- T4: 0xFFFF is 65535. -/
theorem test_addImm_zero_extends :
    completes (start 0x2288FFFF [(1, 0x00000001)] (nzcv 0 0 0 0) []) (gives 2 0x00010000 (nzcv 0 0 0 0)) = true := by decide

/-- T4, R114 (i): wraps, flags not written. -/
theorem test_addImm_wraps_in_place :
    completes (start 0x22480001 [(1, 0xFFFFFFFF)] (nzcv 1 1 1 1) []) (gives 1 0x00000000 (nzcv 1 1 1 1)) = true := by decide

/-- T4: V = 1. -/
theorem test_addsImm_overflow :
    completes (start 0x32880001 [(1, 0x7FFFFFFF)] (nzcv 0 0 0 0) []) (gives 2 0x80000000 (nzcv 1 0 0 1)) = true := by decide

/-- T4: carry out, result 0. -/
theorem test_addsImm_carry :
    completes (start 0x3288FFFF [(1, 0xFFFF0001)] (nzcv 1 0 0 1) []) (gives 2 0x00000000 (nzcv 0 1 1 0)) = true := by decide

/-- T4. -/
theorem test_subImm_wraps :
    completes (start 0x24880001 [(1, 0x00000000)] (nzcv 0 0 0 0) []) (gives 2 0xFFFFFFFF (nzcv 0 0 0 0)) = true := by decide

/-- T4: 7 - 8, the difference is written (D20), C = 0 on a borrow (D17). -/
theorem test_cmpImm_borrow :
    completes (start 0x34880008 [(1, 0x00000007)] (nzcv 1 1 1 1) []) (gives 2 0xFFFFFFFF (nzcv 1 0 0 0)) = true := by decide

/-- T4: signed overflow, no borrow. -/
theorem test_cmpImm_overflow :
    completes (start 0x34880001 [(1, 0x80000000)] (nzcv 0 0 0 0) []) (gives 2 0x7FFFFFFF (nzcv 0 0 1 1)) = true := by decide

/-- T4. -/
theorem test_andImm_clears_upper :
    completes (start 0x268800FF [(1, 0x12345678)] (nzcv 1 1 1 1) []) (gives 2 0x00000078 (nzcv 1 1 1 1)) = true := by decide

/-- T4: N = 0, C and V cleared (D18). -/
theorem test_andsImm_flags :
    completes (start 0x36888000 [(1, 0xFFFF8000)] (nzcv 1 1 1 1) []) (gives 2 0x00008000 (nzcv 0 0 0 0)) = true := by decide

/-- T4. -/
theorem test_orImm :
    completes (start 0x2888F0F0 [(1, 0x0F0F0F0F)] (nzcv 0 0 0 0) []) (gives 2 0x0F0FFFFF (nzcv 0 0 0 0)) = true := by decide

/-- T4. -/
theorem test_orsImm_negative :
    completes (start 0x38880000 [(1, 0x80000000)] (nzcv 1 1 1 1) []) (gives 2 0x80000000 (nzcv 1 0 0 0)) = true := by decide

/-- T4. -/
theorem test_xorImm_lower_half :
    completes (start 0x2A88FFFF [(1, 0x12345678)] (nzcv 0 0 0 0) []) (gives 2 0x1234A987 (nzcv 0 0 0 0)) = true := by decide

/-- T4. -/
theorem test_xorsImm_zero :
    completes (start 0x3A881234 [(1, 0x00001234)] (nzcv 1 1 1 1) []) (gives 2 0x00000000 (nzcv 0 1 0 0)) = true := by decide

/-- T5. -/
theorem test_lsl_16 :
    completes (start 0x08880010 [(1, 0x12345678)] (nzcv 1 1 1 1) []) (gives 2 0x56780000 (nzcv 1 1 1 1)) = true := by decide

/-- T5 (D21). -/
theorem test_lsl_32 :
    completes (start 0x08880020 [(1, 0xFFFFFFFF)] (nzcv 0 0 0 0) []) (gives 2 0x00000000 (nzcv 0 0 0 0)) = true := by decide

/-- T5: zero fill. -/
theorem test_lsr_31_logical :
    completes (start 0x0A48001F [(1, 0x80000000)] (nzcv 0 0 0 0) []) (gives 1 0x00000001 (nzcv 0 0 0 0)) = true := by decide

/-- T5 (D21). -/
theorem test_lsr_65535 :
    completes (start 0x0A88FFFF [(1, 0xFFFFFFFF)] (nzcv 1 1 1 1) []) (gives 2 0x00000000 (nzcv 1 1 1 1)) = true := by decide

/-- T3. -/
theorem test_clr :
    completes (start 0x05400000 [(5, 0xFFFFFFFF)] (nzcv 1 0 1 1) []) (gives 5 0x00000000 (nzcv 1 0 1 1)) = true := by decide

/-- T3. -/
theorem test_set :
    completes (start 0x06000000 [(0, 0x00000000)] (nzcv 0 0 0 0) []) (gives 0 0xFFFFFFFF (nzcv 0 0 0 0)) = true := by decide

/-- T6: all three fields one register. -/
theorem test_addReg_doubles :
    completes (start 0x62490000 [(1, 0x40000000)] (nzcv 0 0 0 0) []) (gives 1 0x80000000 (nzcv 0 0 0 0)) = true := by decide

/-- T6. -/
theorem test_addsReg_carry_and_overflow :
    completes (start 0x72CA0000 [(1, 0x80000000), (2, 0x80000000)] (nzcv 1 0 0 0) []) (gives 3 0x00000000 (nzcv 0 1 1 1)) = true := by decide

/-- T6. -/
theorem test_addsReg_minus_two :
    completes (start 0x72CA0000 [(1, 0xFFFFFFFF), (2, 0xFFFFFFFF)] (nzcv 0 0 0 0) []) (gives 3 0xFFFFFFFE (nzcv 1 0 1 0)) = true := by decide

/-- T6: operand 1 minus operand 2. -/
theorem test_subReg_order :
    completes (start 0x64CA0000 [(1, 0x00000003), (2, 0x00000004)] (nzcv 0 0 0 0) []) (gives 3 0xFFFFFFFF (nzcv 0 0 0 0)) = true := by decide

/-- T6. -/
theorem test_cmpReg_overflow :
    completes (start 0x74CA0000 [(1, 0x7FFFFFFF), (2, 0xFFFFFFFF)] (nzcv 0 0 0 0) []) (gives 3 0x80000000 (nzcv 1 0 0 1)) = true := by decide

/-- T6: -1 against 1. -/
theorem test_cmpReg_higher :
    completes (start 0x74CA0000 [(1, 0xFFFFFFFF), (2, 0x00000001)] (nzcv 0 0 0 0) []) (gives 3 0xFFFFFFFE (nzcv 1 0 1 0)) = true := by decide

/-- T6. -/
theorem test_andReg :
    completes (start 0x66CA0000 [(1, 0xFF00FF00), (2, 0x0FF00FF0)] (nzcv 1 1 1 1) []) (gives 3 0x0F000F00 (nzcv 1 1 1 1)) = true := by decide

/-- T6. -/
theorem test_andsReg_negative :
    completes (start 0x76CA0000 [(1, 0x80000000), (2, 0xFFFFFFFF)] (nzcv 1 1 1 1) []) (gives 3 0x80000000 (nzcv 1 0 0 0)) = true := by decide

/-- T6. -/
theorem test_orReg :
    completes (start 0x68CA0000 [(1, 0xFF00FF00), (2, 0x0FF00FF0)] (nzcv 0 0 0 0) []) (gives 3 0xFFF0FFF0 (nzcv 0 0 0 0)) = true := by decide

/-- T6. -/
theorem test_orsReg_zero :
    completes (start 0x78CA0000 [(1, 0x00000000), (2, 0x00000000)] (nzcv 1 1 1 1) []) (gives 3 0x00000000 (nzcv 0 1 0 0)) = true := by decide

/-- T6. -/
theorem test_xorReg :
    completes (start 0x6ACA0000 [(1, 0xFF00FF00), (2, 0x0FF00FF0)] (nzcv 1 1 1 1) []) (gives 3 0xF0F0F0F0 (nzcv 1 1 1 1)) = true := by decide

/-- T6. -/
theorem test_xorsReg_negative :
    completes (start 0x7ACA0000 [(1, 0x7FFFFFFF), (2, 0xFFFFFFFF)] (nzcv 0 1 1 1) []) (gives 3 0x80000000 (nzcv 1 0 0 0)) = true := by decide

/-- T6: bits [18:0] are `x`. -/
theorem test_not :
    completes (start 0x6CCF1234 [(1, 0x0F0F0F0F)] (nzcv 1 1 1 1) []) (gives 3 0xF0F0F0F0 (nzcv 1 1 1 1)) = true := by decide

/-- R150: the offset is added to the address of the branch itself (D12). -/
theorem test_b_back :
    completes (start 0xC000FFFD [] (nzcv 1 1 1 1) [])
      (fun t => t.pc == 0x0FD && t.flags == nzcv 1 1 1 1 && !t.halted) = true := by decide

/-- R151: B.NE with Z = 0. -/
theorem test_bCond_taken :
    completes (start 0xC220FFFD [] (nzcv 1 0 1 1) [])
      (fun t => t.pc == 0x0FD && t.flags == nzcv 1 0 1 1 && !t.halted) = true := by decide

/-- R151: B.NE with Z = 1. -/
theorem test_bCond_not_taken :
    completes (start 0xC220FFFD [] (nzcv 0 1 0 0) [])
      (fun t => t.pc == 0x101 && t.flags == nzcv 0 1 0 0 && !t.halted) = true := by decide

/-- R152: absolute (D13); the register is not written. -/
theorem test_br_absolute :
    completes (start 0xC580FFFF [(6, 0x00000040)] (nzcv 0 0 0 0) [])
      (fun t => t.pc == 0x03F && t.flags == nzcv 0 0 0 0 && t.reg 6 == 0x40) = true := by decide

/-- R155 (d). -/
theorem test_br_wraps :
    completes (start 0xC5800001 [(6, 0xFFFFFFFF)] (nzcv 0 0 0 0) [])
      (fun t => t.pc == 0x000 && t.flags == nzcv 0 0 0 0 && t.reg 6 == 0xFFFFFFFF) = true := by decide

/-- R153. -/
theorem test_nop :
    completes (start 0xCFFFFFFF [(1, 7)] (nzcv 1 1 1 1) [])
      (fun t => t.pc == 0x101 && t.flags == nzcv 1 1 1 1 && t.reg 1 == 7 && !t.halted) = true := by decide

/-- R154. -/
theorem test_halt :
    completes (start 0xF2345678 [] (nzcv 0 1 0 1) [])
      (fun t => t.pc == 0x101 && t.flags == nzcv 0 1 0 1 && t.halted) = true := by decide

/-- T8: wraps modulo 2^32 (D6). -/
theorem test_b_farthest_back :
    completes (start 0xC0008000 [] (nzcv 0 0 0 0) [])
      (fun t => t.pc == 0xFFFF8100 && t.flags == nzcv 0 0 0 0 && !t.halted) = true := by decide

/-- T9: for each code, in order, the set of flag states (bit k for the state whose digits N Z C V make k) in which it holds. -/
theorem test_condHolds :
    (List.range 16).map (fun c => (List.range 16).foldl (fun acc k =>
      if condHolds (Cond.ofCode (BitVec.ofNat 4 c)) (nzcv (k / 8 % 2) (k / 4 % 2) (k / 2 % 2) (k % 2)) then acc + 2 ^ k else acc) 0)
    = [0xF0F0, 0x0F0F, 0xCCCC, 0x3333, 0xFF00, 0x00FF, 0xAAAA, 0x5555,
       0x0C0C, 0xF3F3, 0xAA55, 0x55AA, 0x0A05, 0xF5FA, 0xFFFF, 0xFFFF] := by decide

/-- T7. -/
theorem test_addWithCarry :
    addWithCarry 0x7FFFFFFF 0x7FFFFFFF false = (0xFFFFFFFE, nzcv 1 0 0 1) ∧
    addWithCarry 0x80000000 0xFFFFFFFF false = (0x7FFFFFFF, nzcv 0 0 1 1) ∧
    addWithCarry 0x00000005 0xFFFFFFF9 true = (0xFFFFFFFF, nzcv 1 0 0 0) ∧
    addWithCarry 0x00000000 0x7FFFFFFF true = (0x80000000, nzcv 1 0 0 1) ∧
    addWithCarry 0xFFFFFFFF 0x00000000 true = (0x00000000, nzcv 0 1 1 0) ∧
    addWithCarry 0x80000000 0x80000000 true = (0x00000001, nzcv 0 0 1 1) := by decide

/-! ### The step itself -/

/-- R173: a fetched word that is no instruction. -/
theorem test_step_undefined :
    stops (start 0x7CC80000 [] (nzcv 0 0 0 0) []) (.undefinedInstruction 0x7CC80000 0x100) = true := by decide

/-- R174: a fetch outside MEM_DOMAIN. -/
theorem test_step_fetch_outside :
    stops ((start 0xC8000000 [] (nzcv 0 0 0 0) []).setPc 0x1000) (.memoryFault 0x1000 .fetch 0x1000) = true := by decide

/-- R31: a halted CPU has no step. -/
theorem test_step_halted :
    stops ((start 0xC8000000 [] (nzcv 0 0 0 0) []).setHalted true) .cpuStopped = true := by decide

/-- Log entry 8: from reset with nothing loaded the first fetch finds a cell nothing has written; with an image loaded it runs. -/
theorem test_step_from_reset :
    stops State.reset (.uninitialisedRead 0 .fetch 0) = true ∧
    completes (State.reset.hostLoad 0 [0x00401234, 0xD0000000]) (fun t => t.reg 1 == 0x1234 && t.pc == 1) = true := by decide

/-- The placed instruction is the one the next step runs. -/
theorem test_withFetchWord :
    completes (State.reset.withFetchWord 32 0xD0000000) (fun t => t.halted && t.pc == 1) = true ∧
    completes (((start 0xC8000000 [] (nzcv 0 0 0 0) []).setPc 0x1000).withFetchWord 32 0x07400000)
      (fun t => t.reg 5 == 0xFFFFFFFF && t.pc == 0x1001) = true := by decide

/-- Writing the same values in another order gives the same memory (one canonical form). -/
theorem test_memory_canonical :
    Memory.writeCell (Memory.writeCell [] 5 0x01020304) 4 7 = Memory.writeCell (Memory.writeCell [] 4 7) 5 0x01020304 ∧
    Memory.wf (Memory.writeCell (Memory.writeCell [] 5 0x01020304) 4 7) := by decide

theorem test_reset_memory_wf : State.reset.mem.wf := by decide

/-! ### Witnesses: the hypotheses of the statements in Certificates/Slice0/Obligations.lean can be met

Each theorem names the statements it is for. The state most of them use holds NOP at 0x100. -/

/-- A running state at a NOP, with one written data cell at the last implemented address. -/
def atNop : State := start 0xC8000000 [(1, 0xFFF), (2, 0x1000), (3, 0xD0000000), (4, 0x100)] (nzcv 0 1 0 0) [(0xFFF, 0xCAFEF00D)]

/-- What an instruction gives, for a claim about a next state. -/
def nextOf (o : Host.Outcome State Fault Refusal) : Option State :=
  match o with
  | .next t => some t
  | .fault _ => none
  | .refused _ => none

/-- What an instruction stops with. -/
def faultOf (o : Host.Outcome State Fault Refusal) : Option Fault :=
  match o with
  | .next _ => none
  | .fault f => some f
  | .refused _ => none

theorem eq_next_of_nextOf {o : Host.Outcome State Fault Refusal} (h : (nextOf o).isSome = true) : ∃ t, o = .next t := by
  cases o <;> simp_all [nextOf]

/-- StepRunsDecodedInstruction. -/
theorem test_met_step :
    atNop.halted = false ∧ atNop.implements atNop.pc = true ∧ atNop.mem.readCell atNop.pc = some 0xC8000000 ∧
    decode 0xC8000000 = .ok .nop := by decide

/-- OpcodeListDecides, its three clauses; DecodedIsWellFormed; EncodeIsCanonical, its second clause. -/
theorem test_met_opcodeList :
    decode 0xFFFFFFFF = .ok .halt ∧ (Instr.load 0 0 0).row.matches 0xBFFFFFFF = false ∧
    (Instr.load 0 0 0).row.matches 0xBDFFFFFF = true ∧
    (Instr.b 0).row.matches 0xC1FFFFFF = true ∧ (Instr.b 5).row.matches 0xC1FFFFFF = true := by decide

/-- DontCareBitsAreIgnored: all 28 `x` bits of a NOP. -/
theorem test_met_dontCare :
    decode 0xC8000000 = .ok .nop ∧
    (0xC8000000#32 ^^^ 0xEFFFFFFF#32) &&& (Instr.nop.row.mask ||| Instr.nop.fieldMask) = 0 := by decide

/-- DecodeOfEncode: the ends of the operand ranges. -/
theorem test_met_encode :
    Instr.wellFormed (.load 7 7 (-32768)) = true ∧ Instr.wellFormed (.bCond .nv 32767) = true ∧
    Instr.wellFormed (.xorsImm 0 7 65535) = true ∧ Instr.wellFormed .halt = true := by decide

/-- The clause `RowDecodes` of every instruction's statement: for each row of R75 a word with every unfixed bit 1. -/
theorem test_met_rows :
    0xBDFFFFFF#32 &&& 0xC2000000 = 0x80000000 ∧ 0xBFFFFFFF#32 &&& 0xC2000000 = 0x82000000 ∧
    0x11FFFFFF#32 &&& 0xEE000000 = 0x00000000 ∧ 0x13FFFFFF#32 &&& 0xEE000000 = 0x02000000 ∧
    0x23FFFFFF#32 &&& 0xFE000000 = 0x22000000 ∧ 0x33FFFFFF#32 &&& 0xFE000000 = 0x32000000 ∧
    0x25FFFFFF#32 &&& 0xFE000000 = 0x24000000 ∧ 0x35FFFFFF#32 &&& 0xFE000000 = 0x34000000 ∧
    0x27FFFFFF#32 &&& 0xFE000000 = 0x26000000 ∧ 0x37FFFFFF#32 &&& 0xFE000000 = 0x36000000 ∧
    0x29FFFFFF#32 &&& 0xFE000000 = 0x28000000 ∧ 0x39FFFFFF#32 &&& 0xFE000000 = 0x38000000 ∧
    0x2BFFFFFF#32 &&& 0xFE000000 = 0x2A000000 ∧ 0x3BFFFFFF#32 &&& 0xFE000000 = 0x3A000000 ∧
    0x1DFFFFFF#32 &&& 0xEA000000 = 0x08000000 ∧ 0x1FFFFFFF#32 &&& 0xEA000000 = 0x0A000000 ∧
    0x15FFFFFF#32 &&& 0xEE000000 = 0x04000000 ∧ 0x17FFFFFF#32 &&& 0xEE000000 = 0x06000000 ∧
    0x63FFFFFF#32 &&& 0xFE000000 = 0x62000000 ∧ 0x73FFFFFF#32 &&& 0xFE000000 = 0x72000000 ∧
    0x65FFFFFF#32 &&& 0xFE000000 = 0x64000000 ∧ 0x75FFFFFF#32 &&& 0xFE000000 = 0x74000000 ∧
    0x67FFFFFF#32 &&& 0xFE000000 = 0x66000000 ∧ 0x77FFFFFF#32 &&& 0xFE000000 = 0x76000000 ∧
    0x69FFFFFF#32 &&& 0xFE000000 = 0x68000000 ∧ 0x79FFFFFF#32 &&& 0xFE000000 = 0x78000000 ∧
    0x6BFFFFFF#32 &&& 0xFE000000 = 0x6A000000 ∧ 0x7BFFFFFF#32 &&& 0xFE000000 = 0x7A000000 ∧
    0x6DFFFFFF#32 &&& 0xFE000000 = 0x6C000000 ∧ 0x7DFFFFFF#32 &&& 0xFE000000 = 0x7C000000 ∧
    0x3DFFFFFF#32 &&& 0xEE000000 = 0x2C000000 ∧
    0xE1FFFFFF#32 &&& 0xDE000000 = 0xC0000000 ∧ 0xE3FFFFFF#32 &&& 0xDE000000 = 0xC2000000 ∧
    0xE5FFFFFF#32 &&& 0xDE000000 = 0xC4000000 ∧ 0xEFFFFFFF#32 &&& 0xD8000000 = 0xC8000000 ∧
    0xFFFFFFFF#32 &&& 0xD0000000 = 0xD0000000 := by decide

/-- LoadReadsCell, its three clauses: the last implemented address, written; an implemented one, unwritten; the first beyond. -/
theorem test_met_load :
    (atNop.implements (atNop.offsetAddress 1 0) = true ∧ atNop.mem.readCell (atNop.offsetAddress 1 0) = some 0xCAFEF00D) ∧
    (atNop.implements (atNop.offsetAddress 1 (-1)) = true ∧ atNop.mem.readCell (atNop.offsetAddress 1 (-1)) = none) ∧
    atNop.implements (atNop.offsetAddress 2 0) = false := by decide

/-- StorWritesCell, its two clauses; MemoryFaultExactly, its last. -/
theorem test_met_stor :
    atNop.implements (atNop.offsetAddress 1 0) = true ∧ atNop.implements (atNop.offsetAddress 1 1) = false := by decide

/-- The statements on immediates (MovesReplaceOneHalf, AddSubImmediateWrap, AddsImmediateSetsFlags, CmpImmediateWritesAndSetsFlags,
LogicImmediateBitwise, LogicImmediateSetsFlags): the ends of the range. -/
theorem test_met_immediates : (0 : Nat) ≤ 65535 ∧ (65535 : Nat) ≤ 65535 := by decide

/-- ShiftsByWholeImmediate, the clauses on amounts of 32 and more: both ends. -/
theorem test_met_shifts : ((32 : Nat) ≤ 65535 ∧ 32 ≤ 32) ∧ (65535 : Nat) ≤ 65535 ∧ 32 ≤ 65535 := by decide

/-- ConditionalBranch and PcAdvance: a condition that holds and one that does not. -/
theorem test_met_conditions :
    condHolds .eq atNop.flags = true ∧ condHolds .ne atNop.flags = false := by decide

/-- OnlyHaltSetsHalted, its first clause. -/
theorem test_met_halted : (atNop.setHalted true).halted = true := by decide

/-- PcAdvance, OnlyHaltSetsHalted (second clause), RegisterReadWriteTable and FlagsWrittenByTenReadByOne (first clauses): next states
of each kind of instruction. -/
theorem test_met_next :
    (∃ t, exec (.b (-3)) atNop = .next t) ∧ (∃ t, exec (.bCond .eq 5) atNop = .next t) ∧
    (∃ t, exec (.bCond .ne 5) atNop = .next t) ∧ (∃ t, exec (.br 4 1) atNop = .next t) ∧
    (∃ t, exec .halt atNop = .next t) ∧ (∃ t, exec (.stor 3 1 0) atNop = .next t) ∧
    ((∃ t, exec (.load 5 1 0) atNop = .next t) ∧ Instr.dest (.load 5 1 0) ≠ some 1 ∧ Instr.setsFlags (.load 5 1 0) = false) := by
  refine ⟨?_, ?_, ?_, ?_, ?_, ?_, ?_, by decide⟩ <;> exact eq_next_of_nextOf (by decide)

/-- RegisterReadWriteTable, its second clause: a register that is not a source, the destination among them, with a next state and
with a fault. -/
theorem test_met_sources :
    (5 ∉ Instr.sources (.load 5 1 0) ∧ (nextOf (exec (.load 5 1 0) atNop)).isSome = true) ∧
    (6 ∉ Instr.sources (.load 5 1 0)) ∧
    (5 ∉ Instr.sources (.load 5 2 0) ∧
      faultOf (exec (.load 5 2 0) atNop) = some (.memoryFault 0x1000 .load 0x100)) := by decide

/-- FlagsWrittenByTenReadByOne, its second clause: an instruction that writes the flags, one that does not, and one that faults. -/
theorem test_met_flags :
    ((∀ c off, Instr.addsImm 1 2 3 ≠ .bCond c off) ∧ (nextOf (exec (.addsImm 1 2 3) atNop)).isSome = true) ∧
    ((∀ c off, Instr.nop ≠ .bCond c off) ∧ (nextOf (exec .nop atNop)).isSome = true) ∧
    ((∀ c off, Instr.load 5 2 0 ≠ .bCond c off) ∧ (faultOf (exec (.load 5 2 0) atNop)).isSome = true) :=
  ⟨⟨nofun, by decide⟩, ⟨nofun, by decide⟩, ⟨nofun, by decide⟩⟩

/-- CellsAreIndependent: the last implemented address with another beside it, and the first beyond. -/
theorem test_met_cells :
    (atNop.implements 0xFFF = true ∧ (0xFFE : Word) ≠ 0xFFF) ∧ atNop.implements 0x1000 = false := by decide

/-- StoreIsFetchedAtOnce: a STOR of a HALT word to the cell after it. -/
theorem test_met_storeFetched :
    (∃ t, exec (.stor 3 4 1) atNop = .next t) ∧ atNop.offsetAddress 4 1 = atNop.pc + config.istep ∧
    atNop.halted = false ∧ decode (atNop.reg 3) = .ok .halt :=
  ⟨eq_next_of_nextOf (by decide), by decide⟩

/-- MemoryFaultExactly, its last clause: a step that faults at the fetch, at a LOAD and at a STOR. -/
theorem test_met_stepMemoryFault :
    faultOf (step (atNop.setPc 0x1000)) = some (.memoryFault 0x1000 .fetch 0x1000) ∧
    faultOf (step (start 0x81500000 [(2, 0x1000)] (nzcv 0 0 0 0) [])) = some (.memoryFault 0x1000 .load 0x100) ∧
    faultOf (step (start 0x83500000 [(2, 0x1000)] (nzcv 0 0 0 0) [])) = some (.memoryFault 0x1000 .store 0x100) := by decide

/-- MemoryFaultExactly, its first two clauses. -/
theorem test_met_memoryFault :
    ((atNop.setPc 0x1000).halted = false ∧ (atNop.setPc 0x1000).implements (atNop.setPc 0x1000).pc = false) ∧
    faultOf (exec (.load 5 2 0) atNop) = some (.memoryFault 0x1000 .load 0x100) ∧
    faultOf (exec (.stor 5 2 0) atNop) = some (.memoryFault 0x1000 .store 0x100) := by decide

/-- OnlyMemoryAccessesCanFail. -/
theorem test_met_noAccess :
    (∀ rd rp off, Instr.halt ≠ .load rd rp off) ∧ (∀ rd rp off, Instr.halt ≠ .stor rd rp off) := ⟨nofun, nofun⟩

/-- UnwrittenCellsStopReads, its second and last clauses: a LOAD of an implemented, unwritten cell, alone and as a step, and a step
whose fetch finds one. -/
theorem test_met_stepUnwritten :
    (atNop.implements (atNop.offsetAddress 1 (-1)) = true ∧ atNop.mem.readCell (atNop.offsetAddress 1 (-1)) = none) ∧
    faultOf (step (start 0x81500000 [(2, 0xFFF)] (nzcv 0 0 0 0) [])) = some (.uninitialisedRead 0xFFF .load 0x100) ∧
    faultOf (step (atNop.setPc 0xFFE)) = some (.uninitialisedRead 0xFFE .fetch 0xFFE) := by decide

/-- UnwrittenCellsStopReads: a fetch and a LOAD of an implemented, unwritten cell. -/
theorem test_met_unwritten :
    ((atNop.setPc 0xFFE).halted = false ∧ (atNop.setPc 0xFFE).implements 0xFFE = true ∧
      (atNop.setPc 0xFFE).mem.readCell 0xFFE = none) ∧
    faultOf (exec (.load 5 1 (-1)) atNop) = some (.uninitialisedRead 0xFFE .load 0x100) := by decide

/-- A running state whose one written cell, at address 0, is a NOP. -/
def invState : State := { State.reset with mem := [(0, 0x00), (1, 0x00), (2, 0x00), (3, 0xC8)] }

/-- StepKeepsInv, HostKeepsInv: a state that meets the invariant, has a step and an implemented address. -/
theorem test_met_inv :
    invState.Inv ∧ (∃ t, step invState = .next t) ∧ invState.implements 0xFFFFFFFF = true := by
  refine ⟨⟨by decide, ?_, ?_⟩, eq_next_of_nextOf (by decide), by decide⟩
  · intro e he
    refine ⟨0, by decide, ?_⟩
    have h : e = (0, 0x00) ∨ e = (1, 0x00) ∨ e = (2, 0x00) ∨ e = (3, 0xC8) := by simpa [invState] using he
    rcases h with rfl | rfl | rfl | rfl <;> decide
  · intro a j hj h
    have ha : a = 0 := by
      by_contra hne
      have hpos : 0 < a.toNat := Nat.pos_of_ne_zero fun e => hne (BitVec.eq_of_toNat_eq e)
      have hk : 3 < cellKey a + j := by rw [cellKey_eq]; omega
      rw [Memory.byte_of_not_listed] at h
      · simp [unwrittenByte_eq] at h
      · intro e he
        have hc : e = (0, 0x00) ∨ e = (1, 0x00) ∨ e = (2, 0x00) ∨ e = (3, 0xC8) := by simpa [invState] using he
        rcases hc with rfl | rfl | rfl | rfl <;> simp only <;> omega
    subst ha
    decide

/-- StepKeepsMemDomain: a step, and an address outside MEM_DOMAIN. -/
theorem test_met_memDomain : (∃ t, step atNop = .next t) ∧ atNop.implements 0x1000 = false :=
  ⟨eq_next_of_nextOf (by decide), by decide⟩

/-- HostLoadPlacesImage: an image that wraps past the top of the address space, its last word, and a cell outside it. -/
theorem test_met_hostLoad :
    [1, 2].length ≤ 2 ^ 32 ∧ ([1, 2] : List Word)[1]? = some 2 ∧ (0xFFFFFFFF : Word) + BitVec.ofNat 32 1 = 0 ∧
    ∀ j, j < 2 → (1 : Word) ≠ 0xFFFFFFFF + BitVec.ofNat 32 j := by decide

/-- PlacedInstructionRuns. -/
theorem test_met_placed : decodeTableWord 32 0xD0000000 = some .halt := by decide

end Sys2Proof.Tests
end

/-! SUPPORT. The data immediate statements (41_data_immediate.md): how a word of a class 00 row is decoded, what an
instruction that only writes `rd` does, and the proofs that rest on the two. -/

namespace Sys2Proof.Machine

/-! ### Words of class 00 (R75, R76) -/

/-- The words of a class 00 row go to `decodeImmediate`, with the bits it branches on as the row has them. The row fixes
bits 31 to 29 and 27 to 25, as all but the two shifts do; bit 28 only where its mask says so (CLR and SET leave it open). -/
theorem rowDecodes_immediate {value mask : Word} {mk : Word → Instr} (hmask : mask &&& 0xEE000000 = 0xEE000000)
    (hclass : value[31] = false ∧ value[30] = false)
    (harm : ∀ w : Word, w[29] = value[29] → (mask[28] = true → w[28] = value[28]) → w[27] = value[27] →
      w[26] = value[26] → w[25] = value[25] → decodeImmediate w = .ok (mk w)) :
    RowDecodes value mask mk := by
  intro w h
  have fixed (k : Nat) (hk : k < 32) (hm : (0xEE000000 : Word)[k] = true) : w[k] = value[k] :=
    bit_of_masked h k hk ((bit_of_masked hmask k hk hm).trans hm)
  have h31 : w[31] = false := (fixed 31 (by decide) (by decide)).trans hclass.1
  have h30 : w[30] = false := (fixed 30 (by decide) (by decide)).trans hclass.2
  rw [decode_eq, decodeFixed, h31, h30]
  exact harm w (fixed 29 (by decide) (by decide)) (bit_of_masked h 28 (by decide)) (fixed 27 (by decide) (by decide))
    (fixed 26 (by decide) (by decide)) (fixed 25 (by decide) (by decide))

theorem rowDecodes_andImm : RowDecodes 0x26000000 0xFE000000 (fun w => .andImm (rdField w) (raField w) (immField w)) :=
  rowDecodes_immediate (by decide) (by decide) fun w h29 h28 h27 h26 h25 => by
    simp [decodeImmediate, h29, h28, h27, h26, h25]

theorem rowDecodes_orImm : RowDecodes 0x28000000 0xFE000000 (fun w => .orImm (rdField w) (raField w) (immField w)) :=
  rowDecodes_immediate (by decide) (by decide) fun w h29 h28 h27 h26 h25 => by
    simp [decodeImmediate, h29, h28, h27, h26, h25]

theorem rowDecodes_xorImm : RowDecodes 0x2A000000 0xFE000000 (fun w => .xorImm (rdField w) (raField w) (immField w)) :=
  rowDecodes_immediate (by decide) (by decide) fun w h29 h28 h27 h26 h25 => by
    simp [decodeImmediate, h29, h28, h27, h26, h25]

theorem rowDecodes_clr : RowDecodes 0x04000000 0xEE000000 (fun w => .clr (rdField w)) :=
  rowDecodes_immediate (by decide) (by decide) fun w h29 _ h27 h26 h25 => by
    simp [decodeImmediate, h29, h27, h26, h25]

theorem rowDecodes_set : RowDecodes 0x06000000 0xEE000000 (fun w => .set (rdField w)) :=
  rowDecodes_immediate (by decide) (by decide) fun w h29 _ h27 h26 h25 => by
    simp [decodeImmediate, h29, h27, h26, h25]

/-! ### Instructions that only write `rd` -/

/-- An instruction that ends in `State.finish` completes with the value in `rd`, the flags kept and the frame of R22, R25. -/
theorem completes_of_finish {i : Instr} {s : State} {rd : Reg} {v : Word} {n : Nat}
    (hexec : exec i s = .next (s.finish rd v)) (hvalue : v.toNat = n) :
    ∃ t, exec i s = .next t ∧ (t.reg rd).toNat = n ∧ t.flags = s.flags ∧ DataFrame rd s t :=
  ⟨s.finish rd v, hexec, by rw [State.finish_reg_same, hvalue], s.finish_flags rd v, s.finish_dataFrame rd v⟩

/-- Settles O15: the row clauses from `rowDecodes_immediate`; the three operations of words are those of their numbers, and
the immediate is its own number as a word. -/
theorem logicImmediateBitwise : Obligations.LogicImmediateBitwise := by
  refine ⟨rowDecodes_andImm, rowDecodes_orImm, rowDecodes_xorImm, fun rd ra imm s himm => ?_⟩
  have hzext : (zext32 imm).toNat = imm := zext32_toNat imm himm
  refine ⟨completes_of_finish rfl ?and, completes_of_finish rfl ?or, completes_of_finish rfl ?xor⟩
  case and => rw [BitVec.toNat_and, hzext]
  case or => rw [BitVec.toNat_or, hzext]
  case xor => rw [BitVec.toNat_xor, hzext]

/-- Settles O18: the value written, all zeros or all ones, is a constant, so neither the state nor the old register
matters. -/
theorem clearAndSetAllBits : Obligations.ClearAndSetAllBits :=
  ⟨rowDecodes_clr, rowDecodes_set, fun _ _ => ⟨completes_of_finish rfl rfl, completes_of_finish rfl rfl⟩⟩

end Sys2Proof.Machine

/-! SUPPORT. The logical data register statements (42_data_register.md): how a word of a class 01 row is decoded, and the
proofs that rest on it and on `completes_of_finish`. -/

namespace Sys2Proof.Machine

/-! ### Words of class 01, and the undefined forms of NOT (R75, R76, R77) -/

/-- A word of a class 01 row goes to `decodeRegister`, with the bits it branches on as the row has them. Such a row fixes all of
bits 31 to 25. The answer may be an instruction or, for the words of R77, a refusal. -/
theorem decode_registerRow {w value : Word} {answer : Except Undefined Instr} (h : w &&& 0xFE000000 = value)
    (hclass : value[31] = false ∧ value[30] = true)
    (harm : w[29] = value[29] → w[28] = value[28] → w[27] = value[27] → w[26] = value[26] → w[25] = value[25] →
      decodeRegister w = answer) :
    decode w = answer := by
  have fixed (k : Nat) (hk : k < 32) (hm : (0xFE000000 : Word)[k] = true) : w[k] = value[k] := bit_of_masked h k hk hm
  rw [decode_eq, decodeFixed, (fixed 31 (by decide) (by decide)).trans hclass.1,
    (fixed 30 (by decide) (by decide)).trans hclass.2]
  exact harm (fixed 29 (by decide) (by decide)) (fixed 28 (by decide) (by decide)) (fixed 27 (by decide) (by decide))
    (fixed 26 (by decide) (by decide)) (fixed 25 (by decide) (by decide))

theorem rowDecodes_andReg : RowDecodes 0x66000000 0xFE000000 (fun w => .andReg (rdField w) (raField w) (rbField w)) :=
  fun w h => decode_registerRow h (by decide) fun h29 h28 h27 h26 h25 => by
    simp [decodeRegister, h29, h28, h27, h26, h25]

theorem rowDecodes_orReg : RowDecodes 0x68000000 0xFE000000 (fun w => .orReg (rdField w) (raField w) (rbField w)) :=
  fun w h => decode_registerRow h (by decide) fun h29 h28 h27 h26 h25 => by
    simp [decodeRegister, h29, h28, h27, h26, h25]

theorem rowDecodes_xorReg : RowDecodes 0x6A000000 0xFE000000 (fun w => .xorReg (rdField w) (raField w) (rbField w)) :=
  fun w h => decode_registerRow h (by decide) fun h29 h28 h27 h26 h25 => by
    simp [decodeRegister, h29, h28, h27, h26, h25]

theorem rowDecodes_not : RowDecodes 0x6C000000 0xFE000000 (fun w => .not (rdField w) (raField w)) :=
  fun w h => decode_registerRow h (by decide) fun h29 h28 h27 h26 h25 => by
    simp [decodeRegister, h29, h28, h27, h26, h25]

/-- U-c of R77: the words of NOT with S set. -/
theorem decode_notWithFlags (w : Word) (h : w &&& 0xFE000000 = 0x7C000000) : decode w = .error .noRegisterOp :=
  decode_registerRow h (by decide) fun h29 h28 h27 h26 h25 => by
    simp [decodeRegister, h29, h28, h27, h26, h25]

/-- U-a of R77: the operation of NOT in class 00, whatever bit 28 is. -/
theorem decode_notImmediate (w : Word) (h : w &&& 0xEE000000 = 0x2C000000) : decode w = .error .noImmediateOp := by
  have h31 := bit_of_masked h 31 (by decide) (by decide)
  have h30 := bit_of_masked h 30 (by decide) (by decide)
  have h29 := bit_of_masked h 29 (by decide) (by decide)
  have h27 := bit_of_masked h 27 (by decide) (by decide)
  have h26 := bit_of_masked h 26 (by decide) (by decide)
  have h25 := bit_of_masked h 25 (by decide) (by decide)
  simp [decode_eq, decodeFixed, decodeImmediate, h31, h30, h29, h27, h26, h25]

/-! ### The statements -/

/-- Settles O22: the row clauses from `decode_registerRow`; each instruction ends by writing `rd` alone, and the three
operations of words are those of their numbers. -/
theorem logicRegisterBitwise : Obligations.LogicRegisterBitwise :=
  ⟨rowDecodes_andReg, rowDecodes_orReg, rowDecodes_xorReg, fun _ _ _ _ =>
    ⟨completes_of_finish rfl (BitVec.toNat_and _ _), completes_of_finish rfl (BitVec.toNat_or _ _),
      completes_of_finish rfl (BitVec.toNat_xor _ _)⟩⟩

/-- Settles O24: the row and the two undefined forms by the bits they fix; the complement of a word is 2^32 - 1 less its
number. -/
theorem notIsOnesComplement : Obligations.NotIsOnesComplement :=
  ⟨rowDecodes_not, decode_notWithFlags, decode_notImmediate, fun _ _ _ => completes_of_finish rfl BitVec.toNat_not⟩

end Sys2Proof.Machine

/-! SUPPORT. The NOP statement (43_system_branch.md): how a word of a class 11 row is decoded, and the proof that rests on
it and on `State.advance_branchFrame`. -/

namespace Sys2Proof.Machine

/-- A word of a class 11 row goes to `decodeSystem`; such a row fixes bits 31 and 30. -/
theorem decode_systemRow {w value mask : Word} (h : w &&& mask = value) (hmask : mask[31] = true ∧ mask[30] = true)
    (hclass : value[31] = true ∧ value[30] = true) : decode w = decodeSystem w := by
  have h31 : w[31] = true := (bit_of_masked h 31 (by decide) hmask.1).trans hclass.1
  have h30 : w[30] = true := (bit_of_masked h 30 (by decide) hmask.2).trans hclass.2
  rw [decode_eq, decodeFixed, h31, h30]

/-- Within class 11 the row of NOP fixes bits 28 and 27 alone, and `decodeSystem` looks no further. -/
theorem rowDecodes_nop : RowDecodes 0xC8000000 0xD8000000 (fun _ => .nop) := by
  intro w h
  have h28 : w[28] = false := (bit_of_masked h 28 (by decide) (by decide)).trans (by decide)
  have h27 : w[27] = true := (bit_of_masked h 27 (by decide) (by decide)).trans (by decide)
  rw [decode_systemRow h (by decide) (by decide), decodeSystem, h28, h27]

/-- Settles O31: the row clause from `rowDecodes_nop`; NOP is `State.advance`, which moves the pc and keeps the rest. -/
theorem nopOnlyAdvances : Obligations.NopOnlyAdvances :=
  ⟨rowDecodes_nop, fun s => ⟨s.advance, rfl, rfl, s.advance_branchFrame⟩⟩

end Sys2Proof.Machine

/-! SUPPORT. The decoder as a table: the seven opcode bits of a word choose the kind of instruction, its fields are the operands
(30_encoding.md R63, R75, R76). Every decoding statement and every row clause follows from `decode_eq_map` or
`decode_eq_ok_iff`. -/

namespace Sys2Proof

/-- The instruction of the same kind whose operands are the fields of `w` (R63, R64). -/
def Instr.withFields (i : Instr) (w : Word) : Instr :=
  match i with
  | .load _ _ _ => .load (rdField w) (raField w) (offField w)
  | .stor _ _ _ => .stor (rdField w) (raField w) (offField w)
  | .mov _ _ => .mov (rdField w) (immField w)
  | .movt _ _ => .movt (rdField w) (immField w)
  | .addImm _ _ _ => .addImm (rdField w) (raField w) (immField w)
  | .addsImm _ _ _ => .addsImm (rdField w) (raField w) (immField w)
  | .subImm _ _ _ => .subImm (rdField w) (raField w) (immField w)
  | .cmpImm _ _ _ => .cmpImm (rdField w) (raField w) (immField w)
  | .andImm _ _ _ => .andImm (rdField w) (raField w) (immField w)
  | .andsImm _ _ _ => .andsImm (rdField w) (raField w) (immField w)
  | .orImm _ _ _ => .orImm (rdField w) (raField w) (immField w)
  | .orsImm _ _ _ => .orsImm (rdField w) (raField w) (immField w)
  | .xorImm _ _ _ => .xorImm (rdField w) (raField w) (immField w)
  | .xorsImm _ _ _ => .xorsImm (rdField w) (raField w) (immField w)
  | .lsl _ _ _ => .lsl (rdField w) (raField w) (immField w)
  | .lsr _ _ _ => .lsr (rdField w) (raField w) (immField w)
  | .clr _ => .clr (rdField w)
  | .set _ => .set (rdField w)
  | .addReg _ _ _ => .addReg (rdField w) (raField w) (rbField w)
  | .addsReg _ _ _ => .addsReg (rdField w) (raField w) (rbField w)
  | .subReg _ _ _ => .subReg (rdField w) (raField w) (rbField w)
  | .cmpReg _ _ _ => .cmpReg (rdField w) (raField w) (rbField w)
  | .andReg _ _ _ => .andReg (rdField w) (raField w) (rbField w)
  | .andsReg _ _ _ => .andsReg (rdField w) (raField w) (rbField w)
  | .orReg _ _ _ => .orReg (rdField w) (raField w) (rbField w)
  | .orsReg _ _ _ => .orsReg (rdField w) (raField w) (rbField w)
  | .xorReg _ _ _ => .xorReg (rdField w) (raField w) (rbField w)
  | .xorsReg _ _ _ => .xorsReg (rdField w) (raField w) (rbField w)
  | .not _ _ => .not (rdField w) (raField w)
  | .b _ => .b (offField w)
  | .bCond _ _ => .bCond (condField w) (offField w)
  | .br _ _ => .br (rdField w) (offField w)
  | .nop => .nop
  | .halt => .halt

theorem Instr.withFields_withFields (i : Instr) (u w : Word) : (i.withFields u).withFields w = i.withFields w := by
  cases i <;> rfl

@[simp] theorem Instr.withFields_row (i : Instr) (w : Word) : (i.withFields w).row = i.row := by
  cases i <;> rfl

/-! ### The three classes -/

section
variable {w u : Word}

theorem decodeImmediate_eq_map (h29 : w[29] = u[29]) (h28 : w[28] = u[28]) (h27 : w[27] = u[27]) (h26 : w[26] = u[26])
    (h25 : w[25] = u[25]) : decodeImmediate w = (decodeImmediate u).map (·.withFields w) := by
  simp only [decodeImmediate, h29, h28, h27, h26, h25]
  cases u[29] <;> cases u[27] <;> cases u[26] <;> cases u[25] <;> cases u[28] <;> rfl

theorem decodeRegister_eq_map (h29 : w[29] = u[29]) (h28 : w[28] = u[28]) (h27 : w[27] = u[27]) (h26 : w[26] = u[26])
    (h25 : w[25] = u[25]) : decodeRegister w = (decodeRegister u).map (·.withFields w) := by
  simp only [decodeRegister, h29, h28, h27, h26, h25]
  cases u[29] <;> cases u[27] <;> cases u[26] <;> cases u[25] <;> cases u[28] <;> rfl

theorem decodeSystem_eq_map (h28 : w[28] = u[28]) (h27 : w[27] = u[27]) (h26 : w[26] = u[26]) (h25 : w[25] = u[25]) :
    decodeSystem w = (decodeSystem u).map (·.withFields w) := by
  simp only [decodeSystem, h28, h27, h26, h25]
  cases u[28] <;> cases u[27] <;> cases u[26] <;> cases u[25] <;> rfl

/-- Words with the same bits [31:25] are the same kind of instruction, or refused alike. -/
theorem decode_eq_map (h : w.extractLsb' 25 7 = u.extractLsb' 25 7) : decode w = (decode u).map (·.withFields w) := by
  have bit (k : Nat) (hk : k < 32) (h25 : 25 ≤ k) : w[k] = u[k] := by
    rw [getElem_opcode w k hk h25, getElem_opcode u k hk h25, h]
  have h29 := bit 29 (by decide) (by decide)
  have h28 := bit 28 (by decide) (by decide)
  have h27 := bit 27 (by decide) (by decide)
  have h26 := bit 26 (by decide) (by decide)
  have h25 := bit 25 (by decide) (by decide)
  rw [decode_eq, decode_eq, decodeFixed, decodeFixed, bit 31 (by decide) (by decide), bit 30 (by decide) (by decide), h25]
  cases u[31] <;> cases u[30]
  · exact decodeImmediate_eq_map h29 h28 h27 h26 h25
  · exact decodeRegister_eq_map h29 h28 h27 h26 h25
  · cases u[25] <;> rfl
  · exact decodeSystem_eq_map h28 h27 h26 h25

end

/-- The decoder seen through the word's opcode bits alone. -/
theorem decode_eq_map_layout (w : Word) :
    decode w = (decode (layout (w.extractLsb' 25 7) 0 0 0 0)).map (·.withFields w) :=
  decode_eq_map (layout_extract_opcode _ 0 0 0 0).symm

/-- A word is refused, and with which name, by its opcode bits alone. -/
theorem decode_eq_error_iff (w : Word) (e : Undefined) :
    decode w = .error e ↔ decode (layout (w.extractLsb' 25 7) 0 0 0 0) = .error e := by
  rw [decode_eq_map_layout]
  cases decode (layout (w.extractLsb' 25 7) 0 0 0 0) <;> simp [Except.map]

/-- The table of R75, read from the rows: the opcode bits of a row decode to its kind. -/
theorem decode_layout_of_row (i : Instr) : ∀ op : BitVec 7,
    op &&& i.row.mask.extractLsb' 25 7 = i.row.value.extractLsb' 25 7 →
      decode (layout op 0 0 0 0) = .ok (i.withFields (layout op 0 0 0 0)) := by
  cases i <;> simp only [Instr.row, Instr.withFields] <;> decide

/-- The table of R75, read from the decoder: an opcode that decodes is one of the row it decodes to. -/
theorem row_of_decode_layout : ∀ op : BitVec 7, ∀ i ∈ (decode (layout op 0 0 0 0)).toOption,
    op &&& i.row.mask.extractLsb' 25 7 = i.row.value.extractLsb' 25 7 := by
  decide

/-- A word that matches the row of an instruction is the instruction of that row with the word's fields (R75). -/
theorem decode_of_row_matches {i : Instr} {w : Word} (h : i.row.matches w = true) : decode w = .ok (i.withFields w) := by
  rw [decode_eq_map_layout, decode_layout_of_row i _ ((row_matches_iff i w).mp h)]
  exact congrArg Except.ok (i.withFields_withFields _ w)

/-- The whole decoder: the row says which instruction, the fields which operands (R63, R75, R76). -/
theorem decode_eq_ok_iff (w : Word) (i : Instr) : decode w = .ok i ↔ i.row.matches w = true ∧ i.withFields w = i := by
  constructor
  · intro h
    rw [decode_eq_map_layout] at h
    cases hd : decode (layout (w.extractLsb' 25 7) 0 0 0 0) with
    | error e => rw [hd] at h; cases h
    | ok j =>
      rw [hd] at h
      cases h
      refine ⟨?_, j.withFields_withFields w w⟩
      rw [row_matches_iff, Instr.withFields_row]
      exact row_of_decode_layout _ j (by rw [hd]; rfl)
  · rintro ⟨hrow, hfields⟩
    rw [decode_of_row_matches hrow, hfields]

/-- The row clause of every instruction's statement. -/
theorem rowDecodes_row (i : Instr) : Machine.RowDecodes i.row.value i.row.mask i.withFields :=
  fun _ h => decode_of_row_matches (beq_iff_eq.mpr h)

/-- A word decodes to some instruction exactly when it matches some row. -/
theorem decode_isError_iff (w : Word) : (∃ e, decode w = .error e) ↔ ∀ i : Instr, i.row.matches w = false := by
  constructor
  · rintro ⟨e, he⟩ i
    by_contra hi
    rw [decode_of_row_matches (Bool.eq_true_of_not_eq_false hi)] at he
    cases he
  · intro hnone
    cases hd : decode w with
    | error e => exact ⟨e, rfl⟩
    | ok i => exact absurd ((decode_eq_ok_iff w i).mp hd).1 (by rw [hnone i]; decide)

/-! ### Which bits the fields are -/

section
variable {w m : Word}

theorem extract_and_ones {s n : Nat} (h : m.extractLsb' s n = BitVec.allOnes n) :
    (w &&& m).extractLsb' s n = w.extractLsb' s n := by
  rw [BitVec.extractLsb'_and, h, BitVec.and_allOnes]

theorem rdField_and (h : m.extractLsb' 22 3 = BitVec.allOnes 3) : rdField (w &&& m) = rdField w := by
  rw [rdField, extract_and_ones h, rdField]

theorem raField_and (h : m.extractLsb' 19 3 = BitVec.allOnes 3) : raField (w &&& m) = raField w := by
  rw [raField, extract_and_ones h, raField]

theorem rbField_and (h : m.extractLsb' 16 3 = BitVec.allOnes 3) : rbField (w &&& m) = rbField w := by
  rw [rbField, extract_and_ones h, rbField]

theorem immField_and (h : m.extractLsb' 0 16 = BitVec.allOnes 16) : immField (w &&& m) = immField w := by
  rw [immField, extract_and_ones h, immField]

theorem offField_and (h : m.extractLsb' 0 16 = BitVec.allOnes 16) : offField (w &&& m) = offField w := by
  rw [offField, extract_and_ones h, offField]

theorem condField_and (h : m.extractLsb' 21 4 = BitVec.allOnes 4) : condField (w &&& m) = condField w := by
  rw [condField, extract_and_ones h, condField]

end

/-- The bits of its word that an instruction depends on: the others are its `x` bits (R62). -/
def Instr.usedBits (i : Instr) : Word := i.row.mask ||| i.fieldMask

/-- Clearing the `x` bits changes no operand. -/
theorem Instr.withFields_and_usedBits (i : Instr) (w : Word) : i.withFields (w &&& i.usedBits) = i.withFields w := by
  cases i <;>
    simp (disch := decide) only [Instr.withFields, Instr.usedBits, Instr.row, Instr.fieldMask, rdField_and, raField_and,
      rbField_and, immField_and, offField_and, condField_and]

/-- Clearing the `x` bits changes no row. -/
theorem Instr.row_matches_and_usedBits (i : Instr) (w : Word) : i.row.matches (w &&& i.usedBits) = i.row.matches w := by
  have hmask : i.usedBits &&& i.row.mask = i.row.mask := by
    ext k hk
    cases hm : i.row.mask[k] <;> simp [Instr.usedBits, hm]
  rw [OpcodeRow.matches, BitVec.and_assoc, hmask, OpcodeRow.matches]

/-- Words that differ in `x` bits alone decode to the same instruction. -/
theorem decode_congr_usedBits {w w' : Word} {i : Instr} (h : w &&& i.usedBits = w' &&& i.usedBits)
    (hd : decode w = .ok i) : decode w' = .ok i := by
  rw [decode_eq_ok_iff] at hd ⊢
  rwa [← i.row_matches_and_usedBits w', ← i.withFields_and_usedBits w', ← h, i.row_matches_and_usedBits,
    i.withFields_and_usedBits]

/-! ### The encoder against the table -/

/-- The canonical word of an instruction is a word of its row (R75). -/
theorem row_matches_encode : ∀ i : Instr, i.row.matches (encode i) = true
  | .load .. => Laws.RowWord.load ..
  | .stor .. => Laws.RowWord.stor ..
  | .mov .. => Laws.RowWord.mov ..
  | .movt .. => Laws.RowWord.movt ..
  | .addImm .. => Laws.RowWord.addImm ..
  | .addsImm .. => Laws.RowWord.addsImm ..
  | .subImm .. => Laws.RowWord.subImm ..
  | .cmpImm .. => Laws.RowWord.cmpImm ..
  | .andImm .. => Laws.RowWord.andImm ..
  | .andsImm .. => Laws.RowWord.andsImm ..
  | .orImm .. => Laws.RowWord.orImm ..
  | .orsImm .. => Laws.RowWord.orsImm ..
  | .xorImm .. => Laws.RowWord.xorImm ..
  | .xorsImm .. => Laws.RowWord.xorsImm ..
  | .lsl .. => Laws.RowWord.lsl ..
  | .lsr .. => Laws.RowWord.lsr ..
  | .clr .. => Laws.RowWord.clr ..
  | .set .. => Laws.RowWord.set ..
  | .addReg .. => Laws.RowWord.addReg ..
  | .addsReg .. => Laws.RowWord.addsReg ..
  | .subReg .. => Laws.RowWord.subReg ..
  | .cmpReg .. => Laws.RowWord.cmpReg ..
  | .andReg .. => Laws.RowWord.andReg ..
  | .andsReg .. => Laws.RowWord.andsReg ..
  | .orReg .. => Laws.RowWord.orReg ..
  | .orsReg .. => Laws.RowWord.orsReg ..
  | .xorReg .. => Laws.RowWord.xorReg ..
  | .xorsReg .. => Laws.RowWord.xorsReg ..
  | .not .. => Laws.RowWord.not ..
  | .b .. => Laws.RowWord.b ..
  | .bCond .. => Laws.RowWord.bCond ..
  | .br .. => Laws.RowWord.br ..
  | .nop => Laws.RowWord.nop
  | .halt => Laws.RowWord.halt

/-- The encoder puts each operand into its field, whole where it fits (R63, R64). -/
theorem withFields_encode (i : Instr) (h : i.wellFormed = true) : i.withFields (encode i) = i := by
  revert h
  cases i <;>
    simp +contextual only [Instr.wellFormed, Instr.withFields, encode, encodeRRI, encodeRRR, rdField_layout, raField_layout,
      rbField_layout, immField_layout, offField_layout, condField_layout, implies_true]

theorem regBits_rdField (w : Word) : regBits (rdField w) = w.extractLsb' 22 3 := by
  rw [rdField]
  generalize w.extractLsb' 22 3 = d
  revert d; decide

theorem regBits_raField (w : Word) : regBits (raField w) = w.extractLsb' 19 3 := by
  rw [raField]
  generalize w.extractLsb' 19 3 = a
  revert a; decide

theorem regBits_rbField (w : Word) : regBits (rbField w) = w.extractLsb' 16 3 := by
  rw [rbField]
  generalize w.extractLsb' 16 3 = b
  revert b; decide

theorem immBits_immField (w : Word) : immBits (immField w) = w.extractLsb' 0 16 := by
  rw [immBits, immField, BitVec.ofNat_toNat, BitVec.setWidth_eq]

theorem offBits_offField (w : Word) : offBits (offField w) = w.extractLsb' 0 16 :=
  BitVec.ofInt_toInt

theorem Cond.code_ofCode : ∀ c : BitVec 4, (Cond.ofCode c).code = c := by decide

/-- The upper three bits of the condition field are those of the rd field (R65, format `BCI`). -/
theorem condField_code_upper (w : Word) : (condField w).code.extractLsb' 1 3 = w.extractLsb' 22 3 := by
  rw [condField, Cond.code_ofCode]
  apply BitVec.eq_of_toNat_eq
  simp only [BitVec.extractLsb'_toNat, Nat.shiftRight_eq_div_pow]
  omega

/-- The lowest bit of the condition field is the top bit of the ra field, the one bit of it that B.cond's word uses. -/
theorem extract_and_condLower {w m : Word} (h : m.extractLsb' 19 3 = 0b100) :
    (w &&& m).extractLsb' 19 3 = (condField w).code.extractLsb' 0 1 ++ 0#2 := by
  have htop : (w.extractLsb' 21 4).extractLsb' 0 1 = (w.extractLsb' 19 3).extractLsb' 2 1 := by
    apply BitVec.eq_of_toNat_eq
    simp only [BitVec.extractLsb'_toNat, Nat.shiftRight_eq_div_pow]
    omega
  rw [BitVec.extractLsb'_and, h, condField, Cond.code_ofCode, htop]
  generalize w.extractLsb' 19 3 = a
  revert a; decide

theorem extract_and_zero {w m : Word} {s n : Nat} (h : m.extractLsb' s n = 0) : (w &&& m).extractLsb' s n = 0 := by
  rw [BitVec.extractLsb'_and, h]
  exact BitVec.and_zero

/-- Encoding what a word of the row decodes to gives the word back, its `x` bits cleared (R62, R65): each part of the word is
the row's opcode, a field, or `x` bits. -/
theorem encode_withFields {i : Instr} {w : Word} (h : i.row.matches w = true) :
    encode (i.withFields w) = w &&& i.usedBits := by
  have hop : (w &&& i.usedBits).extractLsb' 25 7 = i.row.value.extractLsb' 25 7 := by
    have hmask : i.usedBits.extractLsb' 25 7 = i.row.mask.extractLsb' 25 7 := by
      cases i <;> simp [Instr.usedBits, Instr.row, Instr.fieldMask]
    rw [BitVec.extractLsb'_and, hmask, (row_matches_iff i w).mp h]
  rw [← layout_eta (w &&& i.usedBits), hop]
  cases i <;>
    simp (disch := decide) only [Instr.withFields, encode, encodeRRI, encodeRRR, Instr.usedBits, Instr.row, Instr.fieldMask,
      regBits_rdField, regBits_raField, regBits_rbField, immBits_immField, offBits_offField, condField_code_upper,
      extract_and_ones, extract_and_zero, extract_and_condLower] <;>
    rfl

/-- Reading an instruction's own word back loses at most what did not fit a field, which the encoder never wrote. -/
theorem encode_withFields_encode (i : Instr) : encode (i.withFields (encode i)) = encode i := by
  cases i <;>
    simp only [Instr.withFields, encode, encodeRRI, encodeRRR, rdField_layout, raField_layout, rbField_layout,
      condField_layout, immBits_immField, offBits_offField, layout_extract_low]

/-- The encoder writes no `x` bit, whatever the operands. -/
theorem encode_and_usedBits (i : Instr) : encode i &&& i.usedBits = encode i := by
  rw [← encode_withFields (row_matches_encode i), encode_withFields_encode]

end Sys2Proof

/-! SUPPORT. The decoding and encoding statements (30_encoding.md), each from `decode_eq_ok_iff` and the lemmas on rows, fields and
used bits. -/

namespace Sys2Proof

/-- Fields are in range whatever the word (R64, R81). -/
theorem Instr.wellFormed_withFields (i : Instr) (w : Word) : (i.withFields w).wellFormed = true := by
  cases i <;> simp only [Instr.withFields, Instr.wellFormed, immField_ok, offField_ok]

theorem wellFormed_of_decode {w : Word} {i : Instr} (h : decode w = .ok i) : i.wellFormed = true := by
  obtain ⟨_, hfields⟩ := (decode_eq_ok_iff w i).mp h
  rw [← hfields]
  exact i.wellFormed_withFields w

/-- Words that agree on the used bits, said with their difference. -/
theorem and_eq_of_xor_and_eq_zero {w w' m : Word} (h : (w ^^^ w') &&& m = 0) : w &&& m = w' &&& m := by
  have hdistrib : w &&& m ^^^ w' &&& m = (w ^^^ w') &&& m := by
    ext k hk
    simp only [BitVec.getElem_xor, BitVec.getElem_and, Bool.and_xor_distrib_right]
  exact BitVec.xor_eq_zero_iff.mp (hdistrib.trans h)

/-- Settles O7: the canonical word matches its instruction's row, and each field gives back its operand. -/
theorem decodeOfEncode : Obligations.DecodeOfEncode := fun i hi =>
  (decode_eq_ok_iff (encode i) i).mpr ⟨row_matches_encode i, withFields_encode i hi⟩

/-- Settles O3: what a word decodes to is of the row it matches, and the decoder gives one answer, so two rows that match the
word are one. -/
theorem opcodeListDecides : Obligations.OpcodeListDecides := by
  refine ⟨fun w i h => ((decode_eq_ok_iff w i).mp h).1, fun w i h => ?_, fun w i j hi hj => ?_⟩
  · exact ⟨i.withFields w, decode_of_row_matches h, i.withFields_row w⟩
  · have hij : i.withFields w = j.withFields w :=
      Except.ok.inj ((decode_of_row_matches hi).symm.trans (decode_of_row_matches hj))
    rw [← i.withFields_row w, hij, j.withFields_row]

/-- Settles O4: the refusal depends on the seven opcode bits alone, so the 128 values decide it. -/
theorem undefinedWordsAreExactlyThese : Obligations.UndefinedWordsAreExactlyThese := by
  intro w
  simp only [ne_eq, decode_eq_error_iff w]
  generalize w.extractLsb' 25 7 = op
  revert op
  decide

/-- Settles O5: the decoder answers by the used bits. -/
theorem dontCareBitsAreIgnored : Obligations.DontCareBitsAreIgnored := fun _ _ _ hd hx =>
  decode_congr_usedBits (and_eq_of_xor_and_eq_zero hx) hd

/-- Settles O6: the operands of what is decoded are fields of a word. -/
theorem decodedIsWellFormed : Obligations.DecodedIsWellFormed := fun _ _ => wellFormed_of_decode

/-- Settles O8: the encoder's word keeps its used bits only, and a decoded word agrees with it on those. -/
theorem encodeIsCanonical : Obligations.EncodeIsCanonical := by
  refine ⟨fun i => ?_, fun w i h => ?_⟩
  · change encode i &&& ~~~i.usedBits = 0
    rw [← encode_and_usedBits i, BitVec.and_assoc, BitVec.and_not_self]
    exact BitVec.and_zero
  · obtain ⟨hrow, hfields⟩ := (decode_eq_ok_iff w i).mp h
    calc encode i = encode (i.withFields w) := by rw [hfields]
      _ = w &&& i.usedBits := encode_withFields hrow

/-- Settles O1: the fetched word is what runs, and a decoded instruction is well-formed. -/
theorem stepRunsDecodedInstruction : Obligations.StepRunsDecodedInstruction := fun s w i hh hi hr hd =>
  ⟨wellFormed_of_decode hd, Machine.step_of_fetch s w i hh hi hr hd⟩

/-- Settles O2: the decoder evaluated on each of the eleven words. -/
theorem someWordsDecode : Obligations.SomeWordsDecode := by
  unfold Obligations.SomeWordsDecode
  decide

end Sys2Proof

/-! SUPPORT. Memory and the host (20_memory.md; 60_exceptions.md R187; 70_reset_and_hazards.md): the invariant is kept by one write
of an implemented cell, and whatever changes memory is made of such writes. -/

namespace Sys2Proof.Machine

/-! ### The invariant -/

/-- The invariant speaks of memory and MEM_DOMAIN only. -/
theorem State.Inv.of_same_memory {s t : State} (h : s.Inv) (hm : t.mem = s.mem) (hd : t.memDomain = s.memDomain) : t.Inv := by
  have himp : ∀ a, t.implements a = s.implements a := fun a => by rw [State.implements, hd, State.implements]
  obtain ⟨hcanonical, himplemented, hwhole⟩ := h
  constructor
  · rwa [hm]
  · simpa only [hm, himp] using himplemented
  · simpa only [hm] using hwhole

/-- A write of an implemented cell keeps the invariant: the four new bytes are that whole cell, every other cell is as it was. -/
theorem State.Inv.setMem_writeCell {s : State} (h : s.Inv) {a : Word} (ha : s.implements a = true) (v : Word) :
    (s.setMem (s.mem.writeCell a v)).Inv where
  canonical := s.mem.writeCell_wf a v h.canonical
  implemented e he := by
    rcases s.mem.mem_writeCell a v e he with hcell | hold
    · exact ⟨a, ha, hcell⟩
    · exact h.implemented e hold
  whole b j hj hb := by
    by_cases hba : b = a
    · subst hba
      rw [State.setMem_mem, Memory.readCell_writeCell_same]
      rfl
    · have hapart := cellKey_apart b a hba
      rw [State.setMem_mem, Memory.byte_writeCell_outside _ _ _ _ (by omega)] at hb
      rw [State.setMem_mem, Memory.readCell_writeCell_ne _ _ _ _ hba]
      exact h.whole b j hj hb

/-- Memory as it was, or one implemented cell written: either way the invariant is kept. -/
theorem State.Inv.of_memory_change {s t : State} (h : s.Inv) (hd : t.memDomain = s.memDomain)
    (hm : t.mem = s.mem ∨ ∃ a v, s.implements a = true ∧ t.mem = s.mem.writeCell a v) : t.Inv := by
  rcases hm with hm | ⟨a, v, ha, hm⟩
  · exact h.of_same_memory hm hd
  · exact (h.setMem_writeCell ha v).of_same_memory hm hd

/-- Settles O45: a step changes memory by one write of an implemented cell at most. -/
theorem stepKeepsInv : Obligations.StepKeepsInv := fun s t hs hstep => by
  obtain ⟨hd, hm⟩ := step_next_memory s t hstep
  exact hs.of_memory_change hd hm

/-- Settles O46: after reset memory lists nothing. -/
theorem resetMeetsInv : Obligations.ResetMeetsInv where
  canonical := Memory.reset_wf
  implemented e he := nomatch he
  whole a j _ hbyte := by
    rw [Memory.byte_of_not_listed State.reset.mem _ fun e he => nomatch he, unwrittenByte_eq] at hbyte
    cases hbyte

/-! ### MEM_DOMAIN and `placeAtPc` -/

@[simp] theorem State.withImplemented_mem (s : State) (a : Word) : (s.withImplemented a).mem = s.mem := by
  unfold State.withImplemented
  split <;> rfl

@[simp] theorem State.withImplemented_pc (s : State) (a : Word) : (s.withImplemented a).pc = s.pc := by
  unfold State.withImplemented
  split <;> rfl

@[simp] theorem State.withImplemented_halted (s : State) (a : Word) : (s.withImplemented a).halted = s.halted := by
  unfold State.withImplemented
  split <;> rfl

/-- `withImplemented` adds its own address to MEM_DOMAIN and no other. -/
theorem State.withImplemented_implements (s : State) (a b : Word) :
    (s.withImplemented a).implements b = true ↔ b = a ∨ s.implements b = true := by
  unfold State.withImplemented
  split
  case isTrue ha => exact ⟨.inr, fun h => h.elim (fun hb => hb ▸ ha) id⟩
  case isFalse =>
    have hregion : Region.contains ⟨a, a⟩ b = true ↔ b = a := by
      simp only [Region.contains, Bool.and_eq_true, decide_eq_true_eq]
      exact ⟨fun h => BitVec.le_antisymm h.2 h.1, fun h => h ▸ ⟨BitVec.le_refl _, BitVec.le_refl _⟩⟩
    simp only [State.implements, List.any_cons, Bool.or_eq_true, hregion]

theorem State.Inv.withImplemented {s : State} (h : s.Inv) (a : Word) : (s.withImplemented a).Inv where
  canonical := by rw [State.withImplemented_mem]; exact h.canonical
  implemented e he := by
    rw [State.withImplemented_mem] at he
    obtain ⟨b, hb, hcell⟩ := h.implemented e he
    exact ⟨b, (s.withImplemented_implements a b).mpr (.inr hb), hcell⟩
  whole := by rw [State.withImplemented_mem]; exact h.whole

/-- Settles O47: a host write is a write of an implemented cell, reset leaves memory alone, and placing an instruction implements
its cell before it writes it. -/
theorem hostKeepsInv : Obligations.HostKeepsInv := by
  refine ⟨fun s a v hs ha => hs.setMem_writeCell ha v, fun s hs => hs.of_same_memory rfl rfl, fun s w hs => ?_⟩
  have hrunning : (s.setHalted false).Inv := hs.of_same_memory rfl rfl
  have hpc := ((s.setHalted false).withImplemented_implements s.pc s.pc).mpr (.inl rfl)
  exact (hrunning.withImplemented s.pc).setMem_writeCell hpc w

/-- Settles O48: the one cell a step may write is implemented, so it is none of those that are not. -/
theorem stepKeepsMemDomain : Obligations.StepKeepsMemDomain := fun s t hstep => by
  obtain ⟨hd, hm⟩ := step_next_memory s t hstep
  refine ⟨hd, fun b hb => ?_⟩
  rcases hm with hm | ⟨a, v, ha, hm⟩
  · rw [hm]
  · have hne : b ≠ a := fun hba => by rw [hba, ha] at hb; cases hb
    rw [hm, Memory.readCell_writeCell_ne _ _ _ _ hne]

/-- Settles O39: the laws of cells, read through `memRead` and `memWrite`. -/
theorem cellsAreIndependent : Obligations.CellsAreIndependent := by
  intro s a v
  refine ⟨fun ha => ⟨s.setMem (s.mem.writeCell a v), ?_, ?_, ?_, ?_, fun _ => rfl, rfl, rfl, rfl, rfl⟩,
    fun ha => ⟨?_, ?_⟩⟩
  · rw [State.memWrite, if_pos ha]
  · exact fun k => (State.memRead_eq_ok _ k a v).mpr ⟨ha, s.mem.readCell_writeCell_same a v⟩
  · intro b hb k
    simp only [State.memRead, State.setMem_implements, State.setMem_mem, State.setMem_pc,
      Memory.readCell_writeCell_ne _ _ _ _ hb]
  · exact fun k hk => s.mem.byte_writeCell_outside a v k hk
  · simp [State.memWrite, ha]
  · intro k
    simp [State.memRead, ha]

/-! ### The host's loading of a program -/

/-- Settles O49: the fields of `applyReset`. -/
theorem resetEvent : Obligations.ResetEvent := ⟨rfl, rfl, fun _ => ⟨rfl, rfl, rfl, rfl, rfl⟩⟩

/-- The address of the cell after the one `j` from `a` on. -/
theorem add_one_add_ofNat (a : Word) (j : Nat) : a + 1 + BitVec.ofNat 32 j = a + BitVec.ofNat 32 (j + 1) := by
  apply BitVec.eq_of_toNat_eq
  simp only [BitVec.ofNat_eq_ofNat, BitVec.toNat_add, BitVec.toNat_ofNat]
  omega

/-- Cells fewer than 2^32 apart are distinct, though addresses wrap. -/
theorem ne_add_one_add_ofNat (a : Word) (j : Nat) (hj : j + 1 < 2 ^ 32) : a ≠ a + 1 + BitVec.ofNat 32 j := by
  intro h
  have hnat := congrArg BitVec.toNat h
  simp only [BitVec.ofNat_eq_ofNat, BitVec.toNat_add, BitVec.toNat_ofNat] at hnat
  omega

/-- Loading an image leaves every cell outside it as it was. -/
theorem State.hostLoad_outside (ws : List Word) (s : State) (a b : Word)
    (hb : ∀ j, j < ws.length → b ≠ a + BitVec.ofNat 32 j) : (s.hostLoad a ws).mem.readCell b = s.mem.readCell b := by
  induction ws generalizing s a with
  | nil => rfl
  | cons w ws ih =>
    have hba : b ≠ a := by simpa using hb 0 (by simp)
    have hrest : ∀ j, j < ws.length → b ≠ a + config.istep + BitVec.ofNat 32 j := fun j hj => by
      rw [config_istep, add_one_add_ofNat]
      exact hb (j + 1) (by simpa using hj)
    calc (s.hostLoad a (w :: ws)).mem.readCell b
        = (s.mem.writeCell a w).readCell b := ih (s.hostWrite a w) (a + config.istep) hrest
      _ = s.mem.readCell b := Memory.readCell_writeCell_ne _ _ _ _ hba

/-- Loading an image puts word `j` into the cell `j` from the first. -/
theorem State.hostLoad_inside (ws : List Word) (s : State) (a : Word) (hlen : ws.length ≤ 2 ^ 32) (j : Nat) (w : Word)
    (hw : ws[j]? = some w) : (s.hostLoad a ws).mem.readCell (a + BitVec.ofNat 32 j) = some w := by
  induction ws generalizing s a j with
  | nil => cases hw
  | cons v ws ih =>
    rw [List.length_cons] at hlen
    cases j with
    | zero =>
      cases hw
      have hlater : ∀ j, j < ws.length → a ≠ a + config.istep + BitVec.ofNat 32 j := fun j hj =>
        ne_add_one_add_ofNat a j (by omega)
      calc (s.hostLoad a (w :: ws)).mem.readCell (a + BitVec.ofNat 32 0)
          = ((s.hostWrite a w).hostLoad (a + config.istep) ws).mem.readCell a := by rw [BitVec.add_zero]; rfl
        _ = (s.mem.writeCell a w).readCell a := State.hostLoad_outside ws _ _ a hlater
        _ = some w := Memory.readCell_writeCell_same _ _ _
    | succ j =>
      rw [← add_one_add_ofNat]
      exact ih (s.hostWrite a v) (a + config.istep) (by omega) j hw

/-- Settles O50: by induction on the image, each cell written once and none after. -/
theorem hostLoadPlacesImage : Obligations.HostLoadPlacesImage := fun ws s a hlen =>
  ⟨s.hostLoad_inside ws a hlen, s.hostLoad_outside ws a⟩

/-- Settles O51: after the placing the state runs and its cell at the pc is implemented and holds the word. -/
theorem placedInstructionRuns : Obligations.PlacedInstructionRuns := by
  intro s nbits w i hw
  have hpc : (s.withFetchWord nbits w).pc = s.pc := by
    simp [State.withFetchWord, State.placeAtPc, State.hostWrite]
  have hdecode : decode (tableWord nbits w) = .ok i := by
    unfold decodeTableWord at hw
    cases hd : decode (tableWord nbits w) <;> rw [hd] at hw <;> cases hw
    rfl
  refine ⟨step_of_fetch _ (tableWord nbits w) i ?_ ?_ ?_ hdecode, hpc⟩
  · simp [State.withFetchWord, State.placeAtPc, State.hostWrite]
  · rw [hpc]
    exact ((s.setHalted false).withImplemented_implements s.pc s.pc).mpr (.inl rfl)
  · rw [hpc]
    exact Memory.readCell_writeCell_same _ _ _

end Sys2Proof.Machine

/-! SUPPORT. Rules of the whole machine: how any instruction can end (10_state.md R23, R25, R28, R31) and where each stop comes from
(60_exceptions.md R171 to R178). -/

namespace Sys2Proof.Machine

/-! ### LOAD and STOR, an equation per case (R100, R101)

The address stands as a variable, so that an equation can be used at another state that computes the same address. -/

section
variable {s : State} {rd rp : Reg} {off : Int} {a v : Word}

theorem exec_load_of_read (ha : s.offsetAddress rp off = a) (hi : s.implements a = true)
    (hr : s.mem.readCell a = some v) : exec (.load rd rp off) s = .next (s.finish rd v) := by
  simp [exec, execLoad, ha, (s.memRead_eq_ok .load a v).mpr ⟨hi, hr⟩]

theorem exec_load_of_unwritten (ha : s.offsetAddress rp off = a) (hi : s.implements a = true)
    (hr : s.mem.readCell a = none) : exec (.load rd rp off) s = .fault (.uninitialisedRead a .load s.pc) := by
  simp [exec, execLoad, State.memRead, ha, hi, hr]

theorem exec_load_outside (ha : s.offsetAddress rp off = a) (hi : s.implements a = false) :
    exec (.load rd rp off) s = .fault (.memoryFault a .load s.pc) := by
  simp [exec, execLoad, State.memRead, ha, hi]

theorem exec_stor_of_implements (ha : s.offsetAddress rp off = a) (hi : s.implements a = true) :
    exec (.stor rd rp off) s = .next (s.setMem (s.mem.writeCell a (s.reg rd))).advance := by
  simp [exec, execStor, State.memWrite, ha, hi]

theorem exec_stor_outside (ha : s.offsetAddress rp off = a) (hi : s.implements a = false) :
    exec (.stor rd rp off) s = .fault (.memoryFault a .store s.pc) := by
  simp [exec, execStor, State.memWrite, ha, hi]

end

/-! ### How an instruction can end -/

/-- The ways in which an instruction can complete (R22, R25, R28, R31): it writes `rd`, or `rd` and the flags, or a cell, or only
moves the pc, or sets HALTED. `exec_ending` says there is no other. -/
inductive Ending : Instr → State → State → Prop where
  | write {i : Instr} {s : State} {rd : Reg} (v : Word) (hdest : i.dest = some rd) (hflags : i.setsFlags = false) :
      Ending i s (s.finish rd v)
  | writeFlags {i : Instr} {s : State} {rd : Reg} (v : Word) (f : Flags) (hdest : i.dest = some rd)
      (hflags : i.setsFlags = true) : Ending i s (s.finishFlags rd v f)
  | store {s : State} {rd rp : Reg} {off : Int} (himpl : s.implements (s.offsetAddress rp off) = true) :
      Ending (.stor rd rp off) s (s.setMem (s.mem.writeCell (s.offsetAddress rp off) (s.reg rd))).advance
  | branch {s : State} {off : Int} : Ending (.b off) s (s.setPc (s.branchTarget off))
  | taken {s : State} {c : Cond} {off : Int} (hcond : condHolds c s.flags = true) :
      Ending (.bCond c off) s (s.setPc (s.branchTarget off))
  | untaken {s : State} {c : Cond} {off : Int} (hcond : condHolds c s.flags = false) : Ending (.bCond c off) s s.advance
  | jump {s : State} {rd : Reg} {off : Int} : Ending (.br rd off) s (s.setPc (s.registerTarget rd off))
  | nop {s : State} : Ending .nop s s.advance
  | halt {s : State} : Ending .halt s (s.setHalted true).advance

theorem exec_bCond_taken {c : Cond} {s : State} (h : condHolds c s.flags = true) (off : Int) :
    exec (.bCond c off) s = .next (s.setPc (s.branchTarget off)) := by
  simp [exec, execBCond, h]

theorem exec_bCond_untaken {c : Cond} {s : State} (h : condHolds c s.flags = false) (off : Int) :
    exec (.bCond c off) s = .next s.advance := by
  simp [exec, execBCond, h]

theorem exec_ending {i : Instr} {s t : State} (h : exec i s = .next t) : Ending i s t := by
  cases i with
  | load rd rp off =>
    rcases execLoad_cases rd rp off s with ⟨v, _, _, e⟩ | ⟨_, _, e⟩ | ⟨_, e⟩ <;> rw [e] at h <;> cases h
    exact .write v rfl rfl
  | stor rd rp off =>
    rcases execStor_cases rd rp off s with ⟨hi, e⟩ | ⟨_, e⟩ <;> rw [e] at h <;> cases h
    exact .store hi
  | bCond c off =>
    cases hc : condHolds c s.flags
    · rw [exec_bCond_untaken hc] at h; cases h; exact .untaken hc
    · rw [exec_bCond_taken hc] at h; cases h; exact .taken hc
  | b off => cases h; exact .branch
  | br rd off => cases h; exact .jump
  | nop => cases h; exact .nop
  | halt => cases h; exact .halt
  | addsImm | cmpImm | andsImm | orsImm | xorsImm | addsReg | cmpReg | andsReg | orsReg | xorsReg =>
    cases h; exact .writeFlags _ _ rfl rfl
  | mov | movt | addImm | subImm | andImm | orImm | xorImm | lsl | lsr | clr | set | addReg | subReg | andReg | orReg | xorReg
    | not => cases h; exact .write _ rfl rfl

theorem step_of_halted {s : State} (h : s.halted = true) : step s = .fault .cpuStopped := by
  simp [step, State.nextInstr, h]

/-- Settles O33: a halted CPU has no step; of the endings only HALT's touches HALTED. -/
theorem onlyHaltSetsHalted : Obligations.OnlyHaltSetsHalted := by
  refine ⟨fun _ => step_of_halted, fun i s t h => ?_⟩
  cases exec_ending h with
  | write _ hdest | writeFlags _ _ hdest =>
    have hi : i ≠ .halt := by rintro rfl; cases hdest
    simp [hi]
  | store | branch | taken | untaken | jump | nop | halt => simp

theorem State.branchTarget_toNat (s : State) (off : Int) : ((s.branchTarget off).toNat : Int) = (s.pc.toNat + off) % 2 ^ 32 :=
  add_sext32_toNat s.pc off

theorem State.registerTarget_toNat (s : State) (rd : Reg) (off : Int) :
    ((s.registerTarget rd off).toNat : Int) = ((s.reg rd).toNat + off) % 2 ^ 32 :=
  add_sext32_toNat (s.reg rd) off

theorem State.offsetAddress_toNat (s : State) (rp : Reg) (off : Int) :
    ((s.offsetAddress rp off).toNat : Int) = ((s.reg rp).toNat + off) % 2 ^ 32 :=
  add_sext32_toNat (s.reg rp) off

/-- Settles O38: each address is a sum of words, and so taken modulo 2^32. -/
theorem addressesWrap : Obligations.AddressesWrap := fun s r off =>
  ⟨s.offsetAddress_toNat r off, s.branchTarget_toNat off, s.registerTarget_toNat r off, by simp⟩

/-- Settles O34: every ending but those of the branches taken ends in `State.advance`. -/
theorem pcAdvance : Obligations.PcAdvance := by
  intro i s t h
  cases exec_ending h with
  | write _ hdest | writeFlags _ _ hdest =>
    have hb : ∀ off, i ≠ .b off := by rintro off rfl; cases hdest
    have hc : ∀ c off, i ≠ .bCond c off := by rintro c off rfl; cases hdest
    have hr : ∀ rd off, i ≠ .br rd off := by rintro rd off rfl; cases hdest
    simp [hb, hc, hr]
  | branch => simp [State.branchTarget_toNat]
  | taken hcond => simp [hcond, State.branchTarget_toNat]
  | untaken hcond => simp [hcond]
  | jump => simp [State.registerTarget_toNat]
  | store | nop | halt => simp

/-! ### What an instruction does not see -/

/-- An outcome with its next state changed. -/
def mapNext (g : State → State) : Host.Outcome State Fault Refusal → Host.Outcome State Fault Refusal
  | .next t => .next (g t)
  | .fault f => .fault f
  | .refused r => .refused r

/-- An outcome that is another one but for the next state has its next states and its faults. -/
theorem outcomes_of_eq_mapNext {g : State → State} {o o' : Host.Outcome State Fault Refusal} (h : o' = mapNext g o) :
    (∀ t, o = .next t → o' = .next (g t)) ∧ ∀ f, o = .fault f → o' = .fault f :=
  ⟨fun _ ho => by rw [h, ho]; rfl, fun _ ho => by rw [h, ho]; rfl⟩

/-- What an instruction leaves of a register that was written beforehand: it overwrites it or keeps it. -/
def keepReg (i : Instr) (r : Reg) (v : Word) (t : State) : State := if i.dest = some r then t else t.setReg r v

/-- What an instruction leaves of flags that were written beforehand. -/
def keepFlags (i : Instr) (f : Flags) (t : State) : State := if i.setsFlags then t else t.setFlags f

section
variable {i : Instr} {s : State} {r rd : Reg} {u v : Word} {f : Flags}

theorem exec_setReg_of_finish (hdest : i.dest = some rd) (hs : exec i s = .next (s.finish rd u))
    (hr : exec i (s.setReg r v) = .next ((s.setReg r v).finish rd u)) :
    exec i (s.setReg r v) = mapNext (keepReg i r v) (exec i s) := by
  rw [hr, hs, State.setReg_finish]
  simp [mapNext, keepReg, hdest]

theorem exec_setReg_of_finishFlags (hdest : i.dest = some rd) (hs : exec i s = .next (s.finishFlags rd u f))
    (hr : exec i (s.setReg r v) = .next ((s.setReg r v).finishFlags rd u f)) :
    exec i (s.setReg r v) = mapNext (keepReg i r v) (exec i s) := by
  rw [hr, hs, State.setReg_finishFlags]
  simp [mapNext, keepReg, hdest]

end

/-- An instruction sees no register but its sources (R23): with another one written beforehand it does the same, and leaves that
one as written unless it overwrites it. -/
theorem exec_setReg (i : Instr) (s : State) (r : Reg) (v : Word) (hr : r ∉ i.sources) :
    exec i (s.setReg r v) = mapNext (keepReg i r v) (exec i s) := by
  have keep (q : Reg) (hq : r ≠ q) : s.reg q = (s.setReg r v).reg q := (State.setReg_reg_ne s r v q hq.symm).symm
  have keepAddress (q : Reg) (off : Int) (hq : r ≠ q) : (s.setReg r v).offsetAddress q off = s.offsetAddress q off := by
    rw [State.offsetAddress_eq, State.offsetAddress_eq, keep q hq]
  cases i with
  | load rd rp off =>
    have haddr := keepAddress rp off (List.ne_of_not_mem_cons hr)
    rcases execLoad_cases rd rp off s with ⟨u, hi, hc, e⟩ | ⟨hi, hc, e⟩ | ⟨hi, e⟩
    · exact exec_setReg_of_finish rfl e (exec_load_of_read haddr hi hc)
    · rw [e, exec_load_of_unwritten haddr hi hc]; rfl
    · rw [e, exec_load_outside haddr hi]; rfl
  | stor rd rp off =>
    have hrd : r ≠ rd := List.ne_of_not_mem_cons hr
    have haddr := keepAddress rp off (List.ne_of_not_mem_cons (List.not_mem_of_not_mem_cons hr))
    rcases execStor_cases rd rp off s with ⟨hi, e⟩ | ⟨hi, e⟩
    · rw [e, exec_stor_of_implements haddr hi, ← keep rd hrd]; rfl
    · rw [e, exec_stor_outside haddr hi]; rfl
  | bCond c off =>
    cases hc : condHolds c s.flags
    · rw [exec_bCond_untaken hc, exec_bCond_untaken (s := s.setReg r v) hc]; rfl
    · rw [exec_bCond_taken hc, exec_bCond_taken (s := s.setReg r v) hc]; rfl
  | br rd off =>
    have hrd : r ≠ rd := List.ne_of_not_mem_cons hr
    show Host.Outcome.next ((s.setReg r v).setPc ((s.setReg r v).registerTarget rd off)) = _
    rw [State.registerTarget_eq, ← keep rd hrd]
    rfl
  | b | nop | halt => rfl
  | clr | set => exact exec_setReg_of_finish rfl rfl rfl
  | mov ra _ | movt ra _ | addImm _ ra _ | subImm _ ra _ | andImm _ ra _ | orImm _ ra _ | xorImm _ ra _ | lsl _ ra _
    | lsr _ ra _ | not _ ra =>
    have hra : r ≠ ra := List.ne_of_not_mem_cons hr
    exact exec_setReg_of_finish rfl rfl (by rw [keep ra hra]; rfl)
  | addReg _ ra rb | subReg _ ra rb | andReg _ ra rb | orReg _ ra rb | xorReg _ ra rb =>
    have hra : r ≠ ra := List.ne_of_not_mem_cons hr
    have hrb : r ≠ rb := List.ne_of_not_mem_cons (List.not_mem_of_not_mem_cons hr)
    exact exec_setReg_of_finish rfl rfl (by rw [keep ra hra, keep rb hrb]; rfl)
  | addsImm _ ra _ | cmpImm _ ra _ | andsImm _ ra _ | orsImm _ ra _ | xorsImm _ ra _ =>
    have hra : r ≠ ra := List.ne_of_not_mem_cons hr
    exact exec_setReg_of_finishFlags rfl rfl (by rw [keep ra hra]; rfl)
  | addsReg _ ra rb | cmpReg _ ra rb | andsReg _ ra rb | orsReg _ ra rb | xorsReg _ ra rb =>
    have hra : r ≠ ra := List.ne_of_not_mem_cons hr
    have hrb : r ≠ rb := List.ne_of_not_mem_cons (List.not_mem_of_not_mem_cons hr)
    exact exec_setReg_of_finishFlags rfl rfl (by rw [keep ra hra, keep rb hrb]; rfl)

/-- An instruction other than B.cond sees no flag (R28): with other flags it does the same, and leaves those unless it
overwrites them. -/
theorem exec_setFlags (i : Instr) (s : State) (f : Flags) (hi : ∀ c off, i ≠ .bCond c off) :
    exec i (s.setFlags f) = mapNext (keepFlags i f) (exec i s) := by
  cases i with
  | bCond c off => exact absurd rfl (hi c off)
  | load rd rp off =>
    rcases execLoad_cases rd rp off s with ⟨u, hi, hc, e⟩ | ⟨hi, hc, e⟩ | ⟨hi, e⟩
    · rw [e, exec_load_of_read (s := s.setFlags f) rfl hi hc]; rfl
    · rw [e, exec_load_of_unwritten (s := s.setFlags f) rfl hi hc]; rfl
    · rw [e, exec_load_outside (s := s.setFlags f) rfl hi]; rfl
  | stor rd rp off =>
    rcases execStor_cases rd rp off s with ⟨hi, e⟩ | ⟨hi, e⟩
    · rw [e, exec_stor_of_implements (s := s.setFlags f) rfl hi]; rfl
    · rw [e, exec_stor_outside (s := s.setFlags f) rfl hi]; rfl
  | _ => rfl

/-- Settles O35: no ending writes a register but `rd`, and `exec_setReg` compares the two runs. -/
theorem registerReadWriteTable : Obligations.RegisterReadWriteTable := by
  refine ⟨fun i s t h r hr => ?_, fun i s r v hr => outcomes_of_eq_mapNext (exec_setReg i s r v hr)⟩
  cases exec_ending h with
  | write v hdest => exact s.finish_reg_ne _ v r fun e => hr (by rw [hdest, e])
  | writeFlags v f hdest => exact s.finishFlags_reg_ne _ v f r fun e => hr (by rw [hdest, e])
  | store | branch | taken | untaken | jump | nop | halt => rfl

/-- Settles O36: one ending writes the flags, that of the ten, and `exec_setFlags` compares the two runs. -/
theorem flagsWrittenByTenReadByOne : Obligations.FlagsWrittenByTenReadByOne := by
  refine ⟨fun i s t h hi => ?_, fun i s f hi => outcomes_of_eq_mapNext (exec_setFlags i s f hi)⟩
  cases exec_ending h with
  | writeFlags v f hdest hflags => rw [hi] at hflags; cases hflags
  | write | store | branch | taken | untaken | jump | nop | halt => rfl

/-! ### Where each stop comes from -/

/-- Settles O40: a STOR that completes leaves its cell holding the register, and a fetch reads the one memory. -/
theorem storeIsFetchedAtOnce : Obligations.StoreIsFetchedAtOnce := by
  intro rd rp off s t i h
  cases exec_ending h with
  | write _ hdest | writeFlags _ _ hdest => cases hdest
  | store himpl =>
    have hread := s.mem.readCell_writeCell_same (s.offsetAddress rp off) (s.reg rd)
    refine ⟨?_, fun hnext hrunning hdecode => ?_⟩
    · rintro pc rfl
      exact (State.memRead_eq_ok _ .fetch _ _).mpr ⟨himpl, hread⟩
    · rw [hnext] at himpl hread ⊢
      exact step_of_fetch _ (s.reg rd) i hrunning himpl hread hdecode

theorem step_of_not_implemented {s : State} (hh : s.halted = false) (hi : s.implements s.pc = false) :
    step s = .fault (.memoryFault s.pc .fetch s.pc) := by
  simp [step, State.nextInstr, State.fetchWord, State.memRead, hh, hi]

theorem step_of_unwritten {s : State} (hh : s.halted = false) (hi : s.implements s.pc = true)
    (hr : s.mem.readCell s.pc = none) : step s = .fault (.uninitialisedRead s.pc .fetch s.pc) := by
  simp [step, State.nextInstr, State.fetchWord, State.memRead, hh, hi, hr]

theorem step_of_undefined {s : State} {w : Word} {e : Undefined} (hh : s.halted = false) (hi : s.implements s.pc = true)
    (hr : s.mem.readCell s.pc = some w) (hd : decode w = .error e) : step s = .fault (.undefinedInstruction w s.pc) := by
  simp [step, State.nextInstr, State.fetchWord, State.memRead, hh, hi, hr, hd]

/-- The memory fault of an instruction is that of its own access (R174). -/
theorem exec_memoryFault {i : Instr} {s : State} {a p : Word} {k : Access} (h : exec i s = .fault (.memoryFault a k p)) :
    s.implements a = false ∧ p = s.pc ∧ i.Accesses s k a := by
  rcases exec_fault i s _ h with ⟨rd, rp, off, rfl, ⟨_, _, hf⟩ | ⟨hi, hf⟩⟩ | ⟨rd, rp, off, rfl, hi, hf⟩ <;> cases hf
  · exact ⟨hi, rfl, .inl ⟨rd, rp, off, rfl, rfl, rfl⟩⟩
  · exact ⟨hi, rfl, .inr ⟨rd, rp, off, rfl, rfl, rfl⟩⟩

/-- An unwritten cell stops an instruction only where a LOAD reads it (R175). -/
theorem exec_uninitialisedRead {i : Instr} {s : State} {a p : Word} {k : Access}
    (h : exec i s = .fault (.uninitialisedRead a k p)) :
    s.implements a = true ∧ s.mem.readCell a = none ∧ p = s.pc ∧ k = .load ∧ i.Accesses s k a := by
  rcases exec_fault i s _ h with ⟨rd, rp, off, rfl, ⟨hi, hr, hf⟩ | ⟨_, hf⟩⟩ | ⟨_, _, _, _, _, hf⟩ <;> cases hf
  exact ⟨hi, hr, rfl, rfl, .inl ⟨rd, rp, off, rfl, rfl, rfl⟩⟩

theorem exec_ne_undefinedInstruction (i : Instr) (s : State) (w p : Word) :
    exec i s ≠ .fault (.undefinedInstruction w p) := by
  intro h
  rcases exec_fault i s _ h with ⟨_, _, _, _, ⟨_, _, hf⟩ | ⟨_, hf⟩⟩ | ⟨_, _, _, _, _, hf⟩ <;> cases hf

/-- Settles O41: a step faults so at its fetch or in the access of what it runs. -/
theorem memoryFaultExactly : Obligations.MemoryFaultExactly := by
  refine ⟨fun s => step_of_not_implemented, fun i s a k p => exec_memoryFault,
    fun rd rp off s hi => ⟨exec_load_outside rfl hi, exec_stor_outside rfl hi⟩, fun s a k p h => ?_⟩
  rcases step_fault s _ h with ⟨_, hf⟩ | ⟨hh, hi, hf⟩ | ⟨_, _, _, hf⟩ | ⟨_, _, _, _, _, _, hf⟩ |
    ⟨w, i, hh, hi, hr, hd, he⟩
  case inr.inr.inr.inr =>
    obtain ⟨ha, hp, hacc⟩ := exec_memoryFault he
    exact ⟨hh, ha, hp, .inr ⟨w, i, hi, hr, hd, hacc⟩⟩
  case inr.inl =>
    cases hf
    exact ⟨hh, hi, rfl, .inl ⟨rfl, rfl⟩⟩
  all_goals cases hf

/-- Settles O42: the decoder refuses exactly the words that match no row, and no instruction raises the fault. -/
theorem undefinedInstructionExactly : Obligations.UndefinedInstructionExactly := by
  refine ⟨fun s w p => ⟨fun h => ?_, ?_⟩, exec_ne_undefinedInstruction⟩
  · rcases step_fault s _ h with ⟨_, hf⟩ | ⟨_, _, hf⟩ | ⟨_, _, _, hf⟩ |
      ⟨v, e, hh, hi, hr, hd, hf⟩ | ⟨_, i, _, _, _, _, he⟩
    case inr.inr.inr.inl =>
      cases hf
      exact ⟨hh, hi, hr, rfl, (decode_isError_iff w).mp ⟨e, hd⟩⟩
    case inr.inr.inr.inr => exact absurd he (exec_ne_undefinedInstruction i s w p)
    all_goals cases hf
  · rintro ⟨hh, hi, hr, rfl, hnone⟩
    obtain ⟨e, hd⟩ := (decode_isError_iff w).mpr hnone
    exact step_of_undefined hh hi hr hd

/-- Settles O43: the equations of LOAD and STOR are the only ones with another outcome than a next state, and that is a fault. -/
theorem onlyMemoryAccessesCanFail : Obligations.OnlyMemoryAccessesCanFail := by
  refine ⟨fun i s hl hs => ?_, fun i s r h => ?_⟩
  · obtain ⟨t, e, _, _⟩ := exec_without_access i s hl hs
    exact ⟨t, e⟩
  · cases i with
    | load rd rp off =>
      rcases execLoad_cases rd rp off s with ⟨_, _, _, e⟩ | ⟨_, _, e⟩ | ⟨_, e⟩ <;> rw [e] at h <;> cases h
    | stor rd rp off =>
      rcases execStor_cases rd rp off s with ⟨_, e⟩ | ⟨_, e⟩ <;> rw [e] at h <;> cases h
    | _ => cases h

/-- Settles O44: a step stops so at its fetch or in the LOAD it runs. -/
theorem unwrittenCellsStopReads : Obligations.UnwrittenCellsStopReads := by
  refine ⟨fun s => step_of_unwritten, fun rd rp off s => exec_load_of_unwritten rfl,
    fun i s a k p => exec_uninitialisedRead, fun s a k p h => ?_⟩
  rcases step_fault s _ h with ⟨_, hf⟩ | ⟨_, _, hf⟩ | ⟨hh, hi, hr, hf⟩ | ⟨_, _, _, _, _, _, hf⟩ |
    ⟨w, i, hh, hi, hr, hd, he⟩
  case inr.inr.inr.inr =>
    obtain ⟨ha, hnone, hp, hk, hacc⟩ := exec_uninitialisedRead he
    exact ⟨hh, ha, hnone, hp, .inr ⟨hk, w, i, hi, hr, hd, hacc⟩⟩
  case inr.inr.inl =>
    cases hf
    exact ⟨hh, hi, hr, rfl, .inl ⟨rfl, rfl⟩⟩
  all_goals cases hf

end Sys2Proof.Machine

/-! SUPPORT. The statements on single instructions (40_load_store.md to 43_system_branch.md). A row clause is `rowDecodes_row` at any
instruction of the row; the flags of a sum and of a difference are said once, for the immediate and the register forms alike. -/

namespace Sys2Proof.Machine

/-! ### Load/store -/

/-- Settles O9: LOAD's three equations, one per state of the cell. -/
theorem loadReadsCell : Obligations.LoadReadsCell :=
  ⟨rowDecodes_row (.load 0 0 0), fun rd rp off s =>
    ⟨s.offsetAddress_toNat rp off,
      fun v hi hr => ⟨s.finish rd v, exec_load_of_read rfl hi hr, s.finish_reg_same rd v, rfl, s.finish_dataFrame rd v⟩,
      exec_load_of_unwritten rfl, exec_load_outside rfl⟩⟩

/-- Settles O10: STOR's two equations and the laws of a cell's write. -/
theorem storWritesCell : Obligations.StorWritesCell :=
  ⟨rowDecodes_row (.stor 0 0 0), fun rd rp off s =>
    ⟨s.offsetAddress_toNat rp off,
      fun hi => ⟨_, exec_stor_of_implements rfl hi, s.mem.readCell_writeCell_same _ _,
        s.mem.byte_writeCell_outside (s.offsetAddress rp off) (s.reg rd), fun _ => rfl, rfl, rfl, rfl, rfl⟩,
      exec_stor_outside rfl⟩⟩

/-! ### Instructions that only write `rd` -/

/-- Settles O11: the two halves as arithmetic. -/
theorem movesReplaceOneHalf : Obligations.MovesReplaceOneHalf :=
  ⟨rowDecodes_row (.mov 0 0), rowDecodes_row (.movt 0 0), fun rd imm s himm =>
    ⟨completes_of_finish rfl (withLowerHalf_toNat (s.reg rd) imm himm),
      completes_of_finish rfl (withUpperHalf_toNat (s.reg rd) imm himm)⟩⟩

/-- A difference of words, as a number. -/
theorem sub_toNat (a b : Word) : ((a - b).toNat : Int) = (a.toNat - b.toNat : Int) % 2 ^ 32 := by
  rw [BitVec.toNat_sub]
  omega

/-- A plain subtraction completes with the difference in `rd`, the flags kept and the frame of R22, R25. -/
theorem completes_of_sub {i : Instr} {s : State} {rd : Reg} {a b : Word} (hexec : exec i s = .next (s.finish rd (a - b))) :
    ∃ t, exec i s = .next t ∧ ((t.reg rd).toNat : Int) = (a.toNat - b.toNat : Int) % 2 ^ 32 ∧ t.flags = s.flags ∧
      DataFrame rd s t :=
  ⟨_, hexec, by rw [State.finish_reg_same, sub_toNat], rfl, s.finish_dataFrame rd _⟩

/-- Settles O12: sum and difference of words, the immediate being its own number as a word. -/
theorem addSubImmediateWrap : Obligations.AddSubImmediateWrap := by
  refine ⟨rowDecodes_row (.addImm 0 0 0), rowDecodes_row (.subImm 0 0 0), fun rd ra imm s himm => ?_⟩
  have hzext : (zext32 imm).toNat = imm := zext32_toNat imm himm
  refine ⟨completes_of_finish rfl ?_, ?_⟩
  · rw [BitVec.toNat_add, hzext]
  · simpa only [hzext] using completes_of_sub (i := .subImm rd ra imm) (s := s) rfl

/-- Settles O19: sum and difference of words. -/
theorem addSubRegisterWrap : Obligations.AddSubRegisterWrap :=
  ⟨rowDecodes_row (.addReg 0 0 0), rowDecodes_row (.subReg 0 0 0), fun _ _ _ _ =>
    ⟨completes_of_finish rfl (BitVec.toNat_add _ _), completes_of_sub rfl⟩⟩

/-- Settles O17: each shift as multiplication or division; from 32 on nothing of the word is left. -/
theorem shiftsByWholeImmediate : Obligations.ShiftsByWholeImmediate := by
  refine ⟨rowDecodes_row (.lsl 0 0 0), rowDecodes_row (.lsr 0 0 0), fun rd rs n s _ => ?_⟩
  refine ⟨⟨_, rfl, ?_, fun hn => ?_, rfl, s.finish_dataFrame rd _⟩, ⟨_, rfl, ?_, fun hn => ?_, rfl, s.finish_dataFrame rd _⟩⟩
  · rw [State.finish_reg_same, shiftLeft_toNat]
  · rw [State.finish_reg_same, shiftLeft_toNat]
    exact Nat.mod_eq_zero_of_dvd (Dvd.dvd.mul_left (Nat.pow_dvd_pow 2 hn) _)
  · rw [State.finish_reg_same, shiftRight_toNat]
  · rw [State.finish_reg_same, shiftRight_toNat]
    exact Nat.div_eq_of_lt (lt_of_lt_of_le (s.reg rs).isLt (Nat.pow_le_pow_right (by decide) hn))

/-! ### Logical instructions that set the flags -/

/-- An instruction that ends in a logical result with its flags completes so (R14, R113). -/
theorem completes_of_logic {i : Instr} {s : State} {rd : Reg} {v : Word} {n : Nat}
    (hexec : exec i s = .next (s.finishFlags rd v (logicFlags s.flags v))) (hvalue : v.toNat = n) :
    ∃ t, exec i s = .next t ∧ (t.reg rd).toNat = n ∧ LogicFlagsOf (t.reg rd) t.flags ∧ DataFrame rd s t :=
  ⟨_, hexec, by rw [State.finishFlags_reg_same, hvalue],
    by rw [State.finishFlags_reg_same]; exact logicFlags_of s.flags v, s.finishFlags_dataFrame rd v _⟩

/-- Settles O16: the bitwise operations of words are those of their numbers; an AND with an immediate is below 2^16, so its N
is 0. -/
theorem logicImmediateSetsFlags : Obligations.LogicImmediateSetsFlags := by
  refine ⟨rowDecodes_row (.andsImm 0 0 0), rowDecodes_row (.orsImm 0 0 0), rowDecodes_row (.xorsImm 0 0 0),
    fun rd ra imm s himm => ?_⟩
  have hzext : (zext32 imm).toNat = imm := zext32_toNat imm himm
  refine ⟨?ands, completes_of_logic rfl ?ors, completes_of_logic rfl ?xors⟩
  case ors => rw [BitVec.toNat_or, hzext]
  case xors => rw [BitVec.toNat_xor, hzext]
  case ands =>
    have hvalue : (s.reg ra &&& zext32 imm).toNat = (s.reg ra).toNat &&& imm := by rw [BitVec.toNat_and, hzext]
    obtain ⟨t, hexec, hreg, hflags, hframe⟩ := completes_of_logic (i := .andsImm rd ra imm) rfl hvalue
    refine ⟨t, hexec, hreg, hflags, ?_, hframe⟩
    obtain ⟨hn, _, _, _⟩ := hflags
    have hsmall : (s.reg ra).toNat &&& imm ≤ imm := Nat.and_le_right
    rw [← Bool.not_eq_true, hn, hreg]
    omega

/-- Settles O23: the bitwise operations of words are those of their numbers. -/
theorem logicRegisterSetsFlags : Obligations.LogicRegisterSetsFlags :=
  ⟨rowDecodes_row (.andsReg 0 0 0), rowDecodes_row (.orsReg 0 0 0), rowDecodes_row (.xorsReg 0 0 0), fun _ _ _ _ =>
    ⟨completes_of_logic rfl (BitVec.toNat_and _ _), completes_of_logic rfl (BitVec.toNat_or _ _),
      completes_of_logic rfl (BitVec.toNat_xor _ _)⟩⟩

/-! ### Sums and differences that set the flags -/

/-- C of a difference: no borrow (R10, D17). -/
theorem subWithFlags_c (a b : Word) : (subWithFlags a b).2.c = true ↔ b.toNat ≤ a.toNat := by
  have ha := a.isLt
  have hb := b.isLt
  rw [subWithFlags_eq, addWithCarry_c, BitVec.toNat_not, Bool.toNat_true]
  omega

/-- Z of a difference: the operands are equal. -/
theorem subWithFlags_z (a b : Word) : (subWithFlags a b).2.z = true ↔ a.toNat = b.toNat := by
  have ha := a.isLt
  have hb := b.isLt
  rw [subWithFlags_eq, addWithCarry_z, ← subWithFlags_eq, subWithFlags_result, BitVec.toNat_sub]
  omega

/-- N of a difference is its sign. -/
theorem subWithFlags_n (a b : Word) : (subWithFlags a b).2.n = true ↔ 2 ^ 31 ≤ (a - b).toNat := by
  rw [subWithFlags_eq, addWithCarry_n, ← subWithFlags_eq, subWithFlags_result]

/-- V of a difference: the exact signed difference does not fit (R10). -/
theorem subWithFlags_v (a b : Word) : (subWithFlags a b).2.v = true ↔
    (a.toInt - b.toInt < -2 ^ 31 ∨ 2 ^ 31 - 1 < a.toInt - b.toInt) := by
  rw [subWithFlags_eq, addWithCarry_v, toInt_not, Bool.toNat_true]
  omega

/-- An instruction that ends in a sum with its flags completes so (R10, R113). -/
theorem completes_of_sum {i : Instr} {s : State} {rd : Reg} {a b : Word}
    (hexec : exec i s = .next (s.finishFlags rd (addWithCarry a b false).1 (addWithCarry a b false).2)) :
    ∃ t, exec i s = .next t ∧ (t.reg rd).toNat = (a.toNat + b.toNat) % 2 ^ 32 ∧
      (t.flags.n = true ↔ 2 ^ 31 ≤ (t.reg rd).toNat) ∧ (t.flags.z = true ↔ (t.reg rd).toNat = 0) ∧
      (t.flags.c = true ↔ 2 ^ 32 ≤ a.toNat + b.toNat) ∧
      (t.flags.v = true ↔ (a.toInt + b.toInt < -2 ^ 31 ∨ 2 ^ 31 - 1 < a.toInt + b.toInt)) ∧ DataFrame rd s t := by
  refine ⟨_, hexec, ?_, ?_, ?_, ?_, ?_, s.finishFlags_dataFrame rd _ _⟩
  · rw [State.finishFlags_reg_same, addWithCarry_result, BitVec.toNat_add]
  · rw [State.finishFlags_reg_same, State.finishFlags_flags, addWithCarry_n]
  · rw [State.finishFlags_reg_same, State.finishFlags_flags, addWithCarry_z]
  · rw [State.finishFlags_flags, addWithCarry_c, Bool.toNat_false, Nat.add_zero]
  · rw [State.finishFlags_flags, addWithCarry_v, Bool.toNat_false, Nat.cast_zero, Int.add_zero]

/-- An instruction that ends in a difference with its flags completes so (R10, R113). -/
theorem completes_of_difference {i : Instr} {s : State} {rd : Reg} {a b : Word}
    (hexec : exec i s = .next (s.finishFlags rd (subWithFlags a b).1 (subWithFlags a b).2)) :
    ∃ t, exec i s = .next t ∧ ((t.reg rd).toNat : Int) = (a.toNat - b.toNat : Int) % 2 ^ 32 ∧
      (t.flags.n = true ↔ 2 ^ 31 ≤ (t.reg rd).toNat) ∧ (t.flags.z = true ↔ a.toNat = b.toNat) ∧
      (t.flags.c = true ↔ b.toNat ≤ a.toNat) ∧
      (t.flags.v = true ↔ (a.toInt - b.toInt < -2 ^ 31 ∨ 2 ^ 31 - 1 < a.toInt - b.toInt)) ∧ DataFrame rd s t := by
  refine ⟨_, hexec, ?_, ?_, subWithFlags_z a b, subWithFlags_c a b, subWithFlags_v a b, s.finishFlags_dataFrame rd _ _⟩
  · rw [State.finishFlags_reg_same, subWithFlags_result, sub_toNat]
  · rw [State.finishFlags_reg_same, State.finishFlags_flags, subWithFlags_result, subWithFlags_n]

/-- Settles O13: the sum with the immediate as a word. -/
theorem addsImmediateSetsFlags : Obligations.AddsImmediateSetsFlags :=
  ⟨rowDecodes_row (.addsImm 0 0 0), fun rd ra imm s himm => by
    simpa only [zext32_toNat imm himm, zext32_toInt imm himm] using
      completes_of_sum (i := .addsImm rd ra imm) (s := s) (b := zext32 imm) rfl⟩

/-- Settles O14: the difference with the immediate as a word. -/
theorem cmpImmediateWritesAndSetsFlags : Obligations.CmpImmediateWritesAndSetsFlags :=
  ⟨rowDecodes_row (.cmpImm 0 0 0), fun rd ra imm s himm => by
    simpa only [zext32_toNat imm himm, zext32_toInt imm himm] using
      completes_of_difference (i := .cmpImm rd ra imm) (s := s) (b := zext32 imm) rfl⟩

/-- Settles O20: the sum of two registers. -/
theorem addsRegisterSetsFlags : Obligations.AddsRegisterSetsFlags :=
  ⟨rowDecodes_row (.addsReg 0 0 0), fun _ _ _ _ => completes_of_sum rfl⟩

/-- Settles O21: the difference of two registers, which are equal when their numbers are. -/
theorem cmpRegisterWritesAndSetsFlags : Obligations.CmpRegisterWritesAndSetsFlags :=
  ⟨rowDecodes_row (.cmpReg 0 0 0), fun rd ra rb s => by
    simpa only [BitVec.toNat_inj] using completes_of_difference (i := .cmpReg rd ra rb) (s := s) rfl⟩

/-! ### The pairs of R113 -/

/-- CMP (IMM) is SUB (IMM) with the flags written (D20). -/
theorem exec_cmpImm (rd ra : Reg) (imm : Nat) (s : State) : exec (.cmpImm rd ra imm) s =
    .next ((s.finish rd (s.reg ra - zext32 imm)).setFlags (subWithFlags (s.reg ra) (zext32 imm)).2) := by
  rw [← subWithFlags_result]
  rfl

/-- CMP (REG) is SUB (REG) with the flags written (D20). -/
theorem exec_cmpReg (rd ra rb : Reg) (s : State) : exec (.cmpReg rd ra rb) s =
    .next ((s.finish rd (s.reg ra - s.reg rb)).setFlags (subWithFlags (s.reg ra) (s.reg rb)).2) := by
  rw [← subWithFlags_result]
  rfl

/-- ADDS (IMM) is ADD (IMM) with the flags written. -/
theorem exec_addsImm (rd ra : Reg) (imm : Nat) (s : State) : exec (.addsImm rd ra imm) s =
    .next ((s.finish rd (s.reg ra + zext32 imm)).setFlags (addWithCarry (s.reg ra) (zext32 imm) false).2) := by
  rw [← addWithCarry_result]
  rfl

/-- ADDS (REG) is ADD (REG) with the flags written. -/
theorem exec_addsReg (rd ra rb : Reg) (s : State) : exec (.addsReg rd ra rb) s =
    .next ((s.finish rd (s.reg ra + s.reg rb)).setFlags (addWithCarry (s.reg ra) (s.reg rb) false).2) := by
  rw [← addWithCarry_result]
  rfl

/-- Settles O25: `finishFlags` is `finish` with the flags written, on the same result. -/
theorem flagSettingPairs : Obligations.FlagSettingPairs := fun rd ra rb imm s =>
  ⟨⟨_, _, rfl, exec_addsImm rd ra imm s⟩, ⟨_, _, rfl, exec_cmpImm rd ra imm s⟩, ⟨_, _, rfl, rfl⟩, ⟨_, _, rfl, rfl⟩,
    ⟨_, _, rfl, rfl⟩, ⟨_, _, rfl, exec_addsReg rd ra rb s⟩, ⟨_, _, rfl, exec_cmpReg rd ra rb s⟩, ⟨_, _, rfl, rfl⟩,
    ⟨_, _, rfl, rfl⟩, ⟨_, _, rfl, rfl⟩⟩

/-! ### `AddWithCarry` and the conditions -/

/-- Narrowing to 32 bits changes a signed number exactly where it does not fit. -/
theorem bmod_ne_iff (i : Int) : i.bmod (2 ^ 32) ≠ i ↔ i < -2 ^ 31 ∨ 2 ^ 31 - 1 < i := by
  rw [Int.bmod_def]
  omega

theorem addWithCarry_overflow (a b : Word) :
    (addWithCarry a b false).2.v = true ↔ (a + b).toInt ≠ a.toInt + b.toInt := by
  rw [addWithCarry_v, BitVec.toInt_add, bmod_ne_iff, Bool.toNat_false, Nat.cast_zero, Int.add_zero]

theorem subWithFlags_overflow (a b : Word) :
    (subWithFlags a b).2.v = true ↔ (a - b).toInt ≠ a.toInt - b.toInt := by
  rw [subWithFlags_v, BitVec.toInt_sub, bmod_ne_iff]

theorem subWithFlags_negative (a b : Word) : (subWithFlags a b).2.n = true ↔ (a - b).toInt < 0 := by
  rw [subWithFlags_n, BitVec.toInt_eq_toNat_cond]
  have := (a - b).isLt
  split <;> omega

/-- Settles O37: the two forms of AddWithCarry, the second through `subWithFlags`, which is `AddWithCarry(a, NOT b, 1)`. -/
theorem addWithCarryAddsAndSubtracts : Obligations.AddWithCarryAddsAndSubtracts := by
  intro a b
  rw [← subWithFlags_eq]
  refine ⟨addWithCarry_result a b, addWithCarry_c a b false, addWithCarry_overflow a b, subWithFlags_result a b,
    subWithFlags_negative a b, ?_, subWithFlags_c a b, subWithFlags_overflow a b⟩
  rw [subWithFlags_z, BitVec.toNat_inj]

/-- Settles O28: the table, evaluated on each state of the four flags. -/
theorem conditionTable : Obligations.ConditionTable := by
  rintro ⟨n, z, c, v⟩
  revert n z c v
  decide

/-- N = V after a difference says that the exact signed difference is not negative: where it fits, N is its sign; where it does
not, V is 1 and N the opposite of its sign. -/
theorem subWithFlags_n_eq_v (a b : Word) :
    (subWithFlags a b).2.n = (subWithFlags a b).2.v ↔ b.toInt ≤ a.toInt := by
  have hn := subWithFlags_negative a b
  have hv := subWithFlags_v a b
  rw [BitVec.toInt_sub, Int.bmod_def] at hn
  have ha := BitVec.le_toInt a
  have ha' := BitVec.toInt_lt (x := a)
  have hb := BitVec.le_toInt b
  have hb' := BitVec.toInt_lt (x := b)
  rw [Bool.eq_iff_iff, hn, hv]
  omega

theorem not_eq_true_iff {x : Bool} {p : Prop} (h : x = true ↔ p) : (!x) = true ↔ ¬ p := by
  rw [Bool.not_eq_true', ← Bool.not_eq_true, h]

/-- Settles O29: C and Z compare the unsigned numbers, N, V and Z the signed ones; of the ten conditions five are the negations of
the others. -/
theorem conditionsAfterCompare : Obligations.ConditionsAfterCompare := by
  intro rd ra rb s
  refine ⟨_, exec_cmpReg rd ra rb s, ?_⟩
  generalize s.reg ra = a
  generalize s.reg rb = b
  rw [State.setFlags_flags]
  have heq : condHolds .eq (subWithFlags a b).2 = true ↔ a = b := (subWithFlags_z a b).trans BitVec.toNat_inj
  have hcs : condHolds .cs (subWithFlags a b).2 = true ↔ b.toNat ≤ a.toNat := subWithFlags_c a b
  have hge : condHolds .ge (subWithFlags a b).2 = true ↔ b.toInt ≤ a.toInt := beq_iff_eq.trans (subWithFlags_n_eq_v a b)
  have hhi : condHolds .hi (subWithFlags a b).2 = true ↔ b.toNat < a.toNat := by
    rw [condHolds, Bool.and_eq_true, subWithFlags_c, not_eq_true_iff (subWithFlags_z a b)]
    omega
  have hgt : condHolds .gt (subWithFlags a b).2 = true ↔ b.toInt < a.toInt := by
    have hz : (subWithFlags a b).2.z = true ↔ a.toInt = b.toInt := heq.trans BitVec.toInt_inj.symm
    rw [condHolds, Bool.and_eq_true, not_eq_true_iff hz, beq_iff_eq, subWithFlags_n_eq_v]
    omega
  exact ⟨heq, not_eq_true_iff heq, hcs, (not_eq_true_iff hcs).trans Nat.not_le, hhi, (not_eq_true_iff hhi).trans Nat.not_lt,
    hge, (not_eq_true_iff hge).trans Int.not_le, hgt, (not_eq_true_iff hgt).trans Int.not_lt⟩

/-! ### Branches and HALT -/

/-- Settles O26: B is a write of the pc, which then holds the sum of the branch's own address and the offset. -/
theorem branchIsRelativeToItself : Obligations.BranchIsRelativeToItself :=
  ⟨rowDecodes_row (.b 0), fun off s => ⟨_, rfl, s.branchTarget_toNat off, s.setPc_branchFrame _⟩⟩

/-- Settles O27: one case per value of the condition. -/
theorem conditionalBranch : Obligations.ConditionalBranch := by
  refine ⟨rowDecodes_row (.bCond .eq 0), fun c off s => ?_⟩
  cases hc : condHolds c s.flags
  · exact ⟨s.advance, exec_bCond_untaken hc off, nofun, fun _ => rfl, s.advance_branchFrame⟩
  · exact ⟨_, exec_bCond_taken hc off, fun _ => s.branchTarget_toNat off, nofun, s.setPc_branchFrame _⟩

/-- Settles O30: BR is a write of the pc, which then holds the sum of the register and the offset. -/
theorem registerBranchIsAbsolute : Obligations.RegisterBranchIsAbsolute :=
  ⟨rowDecodes_row (.br 0 0), fun rd off s => ⟨_, rfl, s.registerTarget_toNat rd off, s.setPc_branchFrame _⟩⟩

/-- Settles O32: HALT writes HALTED and the pc, and a halted state has no step. -/
theorem haltStopsTheCpu : Obligations.HaltStopsTheCpu := by
  refine ⟨rowDecodes_row .halt, fun s => ⟨_, rfl, rfl, rfl, fun _ => rfl, rfl, rfl, fun _ => rfl, rfl, fun u h => ?_⟩⟩
  rw [step_of_halted rfl] at h
  cases h

end Sys2Proof.Machine
